-- ==== Sys2Proof/Word.lean ====
section
/-! DEFINITION. The widths of the block's values (00_scope.md R5, R7): bytes, native words and the
pattern of a floating-point operand. -/

namespace Sys2Proof

/-- A byte, the unit of the bus (R7). -/
abbrev Byte := BitVec 8

/-- A word of `NATIVE_W = 32` bits, the width of operands and results (R5, decision D2). -/
abbrev Word := BitVec 32

/-- The bit pattern of a floating-point steps-per-second operand. The block never looks inside it: it
is only the argument of `SpeedConv` (R139). DESIGN CHOICE (log 5): 64 bits, so that a binary32 or a
binary64 pattern fits. Safe. -/
abbrev FValue := BitVec 64

end Sys2Proof
end

