-- ==== Sys2Proof/Config.lean ====
section
/-! DEFINITION. What an implementation fixes: the configuration record `Cfg` of 00_scope.md R5, the
kinds of answer a transport gives (R10), and the free values, which have no body. -/

namespace Sys2Proof

/-- One entry of the registry, the descriptor of a chip parameter: identifier, bit width and
signedness (10_state.md R27). -/
structure RegEntry where
  id : Byte
  width : Nat
  signed : Bool
deriving DecidableEq, Repr

/-- The configuration record of R5, a parameter of every rule: the opcode constants, the two direction
values, the registry and the identifiers the accessors name, the byte sent while reading, and whether
the status read is a critical section. `SpeedConv` is `Config.speedConv`, since it is a function; the
parameters the source fixes stand as constants in Machine/Operands.lean. -/
structure Cfg where
  setParamBase : Byte
  getParamBase : Byte
  runBase : Byte
  stepClockBase : Byte
  moveBase : Byte
  gotoBase : Byte
  gotoDirBase : Byte
  goUntilBase : Byte
  goHomeOp : Byte
  goMarkOp : Byte
  resetPosOp : Byte
  resetDevOp : Byte
  softStopOp : Byte
  hardStopOp : Byte
  softHiZOp : Byte
  hardHiZOp : Byte
  getStatusOp : Byte
  fwdBit : BitVec 1
  revBit : BitVec 1
  registry : List RegEntry
  absPos : Byte
  mark : Byte
  elPos : Byte
  status : Byte
  dummy : Byte
  criticalStatus : Bool
deriving DecidableEq, Repr

/-- The three outcomes of `Exchange` (R10): a byte comes back, the exchange fails
(`TransportFailure`, R193), or it never returns (a hang, R201). -/
inductive Answer where
  | byte (r : Byte)
  | fail
  | hang
deriving DecidableEq, Repr, Inhabited

/-- `SpeedConv` (R5, R139, decision D21): an uninterpreted total function from a floating-point
steps-per-second value to a word. No body: nothing is known of it. Safe (log 6). -/
opaque Config.speedConv : FValue → Word

/-- The transport's answers past the end of the script in State (R10, U5: any value, under no law),
by number of the draw. No body. Safe (log 7). -/
opaque Config.freeAnswer : Nat → Answer

/-- What the platform's reset makes of `IE` when a reset cuts an operation short (R220, U20: any
value), by number of the draw. No body. Safe (log 14). -/
opaque Config.ieAfterReset : Nat → Bool

end Sys2Proof
end

