-- ==== Sys2Proof/Machine/Configuration.lean ====
section
/-! DEFINITION. The configuration in use: well-formedness (00_scope.md R6), the registry lookup
(20_memory.md R61), and the default configuration the spec proposes (R5, R67). -/

namespace Sys2Proof

/-- The registry's entry for an identifier, where there is one. -/
def Cfg.entry (c : Cfg) (id : Byte) : Option RegEntry :=
  c.registry.find? (fun e => e.id == id)

/-- `WidthOf(id)` (R61): the width, or nothing where `InvalidRegister` is raised. -/
def Cfg.widthOf (c : Cfg) (id : Byte) : Option Nat :=
  (c.entry id).map (·.width)

/-- `SignedOf(id)` (R61): the `signed` attribute, used by the accessors of file 44 only. -/
def Cfg.signedOf (c : Cfg) (id : Byte) : Option Bool :=
  (c.entry id).map (·.signed)

/-- R6 (a) and (b) for one entry: its width is 1 to 22; it is signed exactly when it is of the
position class (`ABS_POS` or `MARK`), and then 22 bits wide. -/
def Cfg.entryOk (c : Cfg) (e : RegEntry) : Bool :=
  decide (1 ≤ e.width) && decide (e.width ≤ 22)
    && (e.signed == (e.id == c.absPos || e.id == c.mark))
    && (!e.signed || e.width == 22)

/-- The configuration is well formed (R6): every entry is (a, b); the registry is a partial map, so no
identifier stands twice; `ABS_POS`, `MARK` and `EL_POS` are in its domain (d); the two direction
values differ (e). (c) is that no step writes the configuration. (f) is not required (it is what a
reader of the bus needs; the default has it). -/
def Cfg.wf (c : Cfg) : Bool :=
  c.registry.all c.entryOk
    && decide ((c.registry.map (·.id)).Nodup)
    && (c.entry c.absPos).isSome && (c.entry c.mark).isSome && (c.entry c.elPos).isSome
    && (c.fwdBit != c.revBit)

/-- The direction operand for "forward": the byte whose bit 0 is `FWD_BIT` (R87). -/
def Cfg.fwd (c : Cfg) : Byte := c.fwdBit.setWidth 8

/-- The direction operand for "reverse". -/
def Cfg.rev (c : Cfg) : Byte := c.revBit.setWidth 8

/-- The candidate registry of R67. PRESUMED (log 3): general knowledge of the chip family, but for the
two position registers' 22 signed bits. Unsafe for claims about particular registers. -/
def defaultRegistry : List RegEntry :=
  [⟨0x01, 22, true⟩, ⟨0x02, 9, false⟩, ⟨0x03, 22, true⟩, ⟨0x04, 20, false⟩, ⟨0x05, 12, false⟩,
   ⟨0x06, 12, false⟩, ⟨0x07, 10, false⟩, ⟨0x08, 13, false⟩, ⟨0x09, 8, false⟩, ⟨0x0A, 8, false⟩,
   ⟨0x0B, 8, false⟩, ⟨0x0C, 8, false⟩, ⟨0x0D, 14, false⟩, ⟨0x0E, 8, false⟩, ⟨0x0F, 8, false⟩,
   ⟨0x10, 8, false⟩, ⟨0x11, 4, false⟩, ⟨0x12, 5, false⟩, ⟨0x13, 4, false⟩, ⟨0x14, 7, false⟩,
   ⟨0x15, 10, false⟩, ⟨0x16, 8, false⟩, ⟨0x17, 8, false⟩, ⟨0x18, 16, false⟩, ⟨0x19, 16, false⟩]

/-- The default configuration of R5, column "value". PRESUMED (log 2): every opcode byte, the direction
values, the dummy byte and the identifiers are general knowledge (IK1 to IK4). Unsafe for byte-exact
claims; statements name the fields instead. -/
def defaultCfg : Cfg where
  setParamBase := 0x00
  getParamBase := 0x20
  runBase := 0x50
  stepClockBase := 0x58
  moveBase := 0x40
  gotoBase := 0x60
  gotoDirBase := 0x68
  goUntilBase := 0x82
  goHomeOp := 0x70
  goMarkOp := 0x78
  resetPosOp := 0xD8
  resetDevOp := 0xC0
  softStopOp := 0xB0
  hardStopOp := 0xB8
  softHiZOp := 0xA0
  hardHiZOp := 0xA8
  getStatusOp := 0xD0
  fwdBit := 1
  revBit := 0
  registry := defaultRegistry
  absPos := 0x01
  mark := 0x03
  elPos := 0x02
  status := 0x19
  dummy := 0x00
  criticalStatus := true

end Sys2Proof
end

