-- ==== Sys2Proof/Machine/Operands.lean ====
section
/-! DEFINITION. The arithmetic of the block (41_motion_commands.md R141): how operands become the
opcode byte and the payload bytes, and how response bytes become a result. Every function here is
written once and used by every operation (40_param_codec.md R115). -/

namespace Sys2Proof.Machine

/-- `MAX_RUN_SPEED`, the clamp maximum of run and runRaw (R5, R131). -/
def maxRunSpeed : Word := 0xFFFFF

/-- `MAX_MOVE_STEPS`, the clamp maximum of move. -/
def maxMoveSteps : Word := 0x3FFFFF

/-- `MAX_GOTO_POS`, the clamp maximum of goTo and goToDir. -/
def maxGotoPos : Word := 0x3FFFFF

/-- `MAX_GOUNTIL_SPEED`, the clamp maximum of goUntil and goUntilRaw (90_conflicts.md C1). -/
def maxGoUntilSpeed : Word := 0x3FFFFF

/-- `CMD_PAYLOAD_BYTES`, the payload bytes of a motion command. -/
def cmdPayloadBytes : Nat := 3

/-- `STATUS_BYTES`, the bytes of the status response. -/
def statusBytes : Nat := 2

/-- `ACTION_SHIFT`, the position of the action flag in the opcode byte. -/
def actionShift : Nat := 3

/-- `DIR_SHIFT`, the position of the direction flag in the opcode byte. -/
def dirShift : Nat := 0

/-- A direction operand is legal when none of its bits 7:1 is set (R87). -/
def dirLegal (dir : Byte) : Bool := dir.extractLsb' 1 7 == 0

/-- The field `DIR`: bit 0 of the direction operand (R87). -/
def dirBit (dir : Byte) : BitVec 1 := dir.extractLsb' 0 1

/-- The field `ACT`: 1 exactly when the action operand is above 0 (R88, decision D11). -/
def actBit (action : Byte) : BitVec 1 := if action.toNat > 0 then 1 else 0

/-- `Opcode(base, act, d)` (R86): the base with the action flag at bit 3 and the direction at bit 0. -/
def opcode (base : Byte) (act d : BitVec 1) : Byte :=
  base ||| (act.setWidth 8 <<< actionShift) ||| (d.setWidth 8 <<< dirShift)

/-- `ByteCount(W) = ceil(W / 8)` (R52). -/
def byteCount (w : Nat) : Nat := (w + 7) / 8

/-- `TxBytes(v, N)` (R53): the low `N` bytes of a word, most significant first. -/
def txBytes (v : Word) : Nat → List Byte
  | 0 => []
  | n + 1 => (v >>> (8 * n)).setWidth 8 :: txBytes v n

/-- One received byte shifted into the accumulator (R54): `ACC <- (ACC << 8) | zext(r)`. -/
def shiftIn (acc : Word) (r : Byte) : Word := (acc <<< 8) ||| r.setWidth 32

/-- `RxAssemble` (R54): the bytes in the order received, the first the most significant. -/
def rxAssemble (rs : List Byte) : Word := rs.foldl shiftIn 0

/-- `Mask(v, W) = v & (2^W - 1)` (R55). -/
def mask (v : Word) (w : Nat) : Word := v &&& BitVec.ofNat 32 (2 ^ w - 1)

/-- `SignExt22(v)` (R114): bits 31..22 are set when bit 21 is. -/
def signExt22 (v : Word) : Word := if v.getLsbD 21 then v ||| 0xFFC00000 else v

/-- `ClampU(v, M)` (R131): the comparison reads the operand as unsigned. -/
def clampU (v m : Word) : Word := if m.ult v then m else v

/-- `ClampS(v, M)` (R131, decision D10): the comparison reads the operand as signed, so a negative
operand passes unchanged. -/
def clampS (v m : Word) : Word := if m.slt v then m else v

/-- The word whose every byte is `DUMMY`, which `getParam` gives to `Xfer` (R112, note). -/
def dummyWord (d : Byte) : Word := d ++ d ++ d ++ d

end Sys2Proof.Machine
end

