-- ==== Sys2Proof/Syntax.lean ====
section
/-! DEFINITION. The 24 operations of 30_encoding.md R94, which play the part of instructions, one
constructor for each row of the opcode table; their transaction formats (R80); and the request record
in which the host presents one (R95). -/

namespace Sys2Proof

/-- An operation of the block with its operands (R90, R94). `dir` and `action` are whole bytes, as the
host passes them (R87, R88). -/
inductive Instr where
  | setParam (id : Byte) (value : Word)
  | getParam (id : Byte)
  | runRaw (dir : Byte) (speed : Word)
  | run (dir : Byte) (stepsPerSec : FValue)
  | move (dir : Byte) (steps : Word)
  | goTo (pos : Word)
  | goToDir (dir : Byte) (pos : Word)
  | goUntilRaw (action dir : Byte) (speed : Word)
  | goUntil (action dir : Byte) (stepsPerSec : FValue)
  | goHome
  | goMark
  | resetPos
  | resetDev
  | softStop
  | hardStop
  | softHiZ
  | hardHiZ
  | stepClock (dir : Byte)
  | getStatus
  | getPos
  | getMark
  | setPos (value : Word)
  | setMark (value : Word)
  | setElPos (value : Word)
deriving DecidableEq, Repr

/-- The five transaction formats of R80: opcode alone, opcode and 3 payload bytes, parameter write,
parameter read, status read. -/
inductive Format where
  | z
  | p3
  | pw
  | pr
  | s2
deriving DecidableEq, Repr

/-- The format of each operation (R90, column "format"). -/
def Instr.format : Instr → Format
  | .setParam _ _ => .pw
  | .getParam _ => .pr
  | .runRaw _ _ => .p3
  | .run _ _ => .p3
  | .move _ _ => .p3
  | .goTo _ => .p3
  | .goToDir _ _ => .p3
  | .goUntilRaw _ _ _ => .p3
  | .goUntil _ _ _ => .p3
  | .goHome => .z
  | .goMark => .z
  | .resetPos => .z
  | .resetDev => .z
  | .softStop => .z
  | .hardStop => .z
  | .softHiZ => .z
  | .hardHiZ => .z
  | .stepClock _ => .z
  | .getStatus => .s2
  | .getPos => .pr
  | .getMark => .pr
  | .setPos _ => .pw
  | .setMark _ => .pw
  | .setElPos _ => .pw

/-- The request as the host presents it (R95): the record `(op, id, action, dir, value, fvalue)`.
Fields an operation does not use are ignored. -/
structure Request where
  op : Nat
  id : Byte
  action : Byte
  dir : Byte
  value : Word
  fvalue : FValue
deriving DecidableEq, Repr

end Sys2Proof
end

