-- ==== Sys2Proof/WellFormed.lean ====
section
/-! DEFINITION. Which operations are well formed: the direction operand has no bit other than bit 0
set (30_encoding.md R87, U1). No other operand has an illegal value: an unknown identifier is an error
of the operation (R91 (d)) and a value over the maximum is clamped (R91 (f)). -/

namespace Sys2Proof

/-- The direction operand of an operation that carries one (R86). -/
def Instr.dir? : Instr → Option Byte
  | .runRaw dir _ => some dir
  | .run dir _ => some dir
  | .move dir _ => some dir
  | .goToDir dir _ => some dir
  | .goUntilRaw _ dir _ => some dir
  | .goUntil _ dir _ => some dir
  | .stepClock dir => some dir
  | .setParam _ _ => none
  | .getParam _ => none
  | .goTo _ => none
  | .goHome => none
  | .goMark => none
  | .resetPos => none
  | .resetDev => none
  | .softStop => none
  | .hardStop => none
  | .softHiZ => none
  | .hardHiZ => none
  | .getStatus => none
  | .getPos => none
  | .getMark => none
  | .setPos _ => none
  | .setMark _ => none
  | .setElPos _ => none

/-- An operation is well formed when its direction operand, if it has one, is legal. -/
def Instr.wf (i : Instr) : Bool :=
  match i.dir? with
  | some dir => Machine.dirLegal dir
  | none => true

end Sys2Proof
end

