-- ==== Sys2Proof/Decode.lean ====
section
/-! DEFINITION. The two encodings of an operation. The REQUEST record (30_encoding.md R95) is what the
host presents and what `step` fetches; the TRANSACTION is the bytes on the bus (R80 to R86, R90, R92).
For each a decoder, total, rejecting by name, and after it the encoder. -/

namespace Sys2Proof

/-- Why a decoder gives no operation. -/
inductive DecodeError where
  /-- A request whose `op` is 24 or more (R95). -/
  | operationNumber (op : Nat)
  /-- No byte at all. -/
  | empty
  /-- A byte that is no opcode byte of R90 (R91 (a)). -/
  | unknownOpcode (b : Byte)
  /-- A parameter opcode whose identifier is not in the registry: the length of the transaction is then
  unknown, and the block never emits it (R91 (d), R92). -/
  | unregistered (id : Byte)
  /-- Fewer bytes than the transaction has (R92). -/
  | truncated
  /-- A byte sent while reading that is not `DUMMY` (R84, R85). -/
  | notDummy
  /-- A motion payload above the command's maximum, which the clamp never lets out (R93, R131). -/
  | overMaximum (p : Word)
deriving DecidableEq, Repr

/-! ## The request record -/

/-- The operation a request asks for, by the numbering of R95; fields it does not use are ignored, an
`op` of 24 or more is refused. -/
def decodeRequest (r : Request) : Except DecodeError Instr :=
  match r.op with
  | 0 => .ok (.setParam r.id r.value)
  | 1 => .ok (.getParam r.id)
  | 2 => .ok (.runRaw r.dir r.value)
  | 3 => .ok (.run r.dir r.fvalue)
  | 4 => .ok (.move r.dir r.value)
  | 5 => .ok (.goTo r.value)
  | 6 => .ok (.goToDir r.dir r.value)
  | 7 => .ok (.goUntilRaw r.action r.dir r.value)
  | 8 => .ok (.goUntil r.action r.dir r.fvalue)
  | 9 => .ok .goHome
  | 10 => .ok .goMark
  | 11 => .ok .resetPos
  | 12 => .ok .resetDev
  | 13 => .ok .softStop
  | 14 => .ok .hardStop
  | 15 => .ok .softHiZ
  | 16 => .ok .hardHiZ
  | 17 => .ok (.stepClock r.dir)
  | 18 => .ok .getStatus
  | 19 => .ok .getPos
  | 20 => .ok .getMark
  | 21 => .ok (.setPos r.value)
  | 22 => .ok (.setMark r.value)
  | 23 => .ok (.setElPos r.value)
  | n => .error (.operationNumber n)

/-- The request record of an operation (R95), the fields it does not use at 0. -/
def encodeRequest : Instr → Request
  | .setParam id value => ⟨0, id, 0, 0, value, 0⟩
  | .getParam id => ⟨1, id, 0, 0, 0, 0⟩
  | .runRaw dir speed => ⟨2, 0, 0, dir, speed, 0⟩
  | .run dir stepsPerSec => ⟨3, 0, 0, dir, 0, stepsPerSec⟩
  | .move dir steps => ⟨4, 0, 0, dir, steps, 0⟩
  | .goTo pos => ⟨5, 0, 0, 0, pos, 0⟩
  | .goToDir dir pos => ⟨6, 0, 0, dir, pos, 0⟩
  | .goUntilRaw action dir speed => ⟨7, 0, action, dir, speed, 0⟩
  | .goUntil action dir stepsPerSec => ⟨8, 0, action, dir, 0, stepsPerSec⟩
  | .goHome => ⟨9, 0, 0, 0, 0, 0⟩
  | .goMark => ⟨10, 0, 0, 0, 0, 0⟩
  | .resetPos => ⟨11, 0, 0, 0, 0, 0⟩
  | .resetDev => ⟨12, 0, 0, 0, 0, 0⟩
  | .softStop => ⟨13, 0, 0, 0, 0, 0⟩
  | .hardStop => ⟨14, 0, 0, 0, 0, 0⟩
  | .softHiZ => ⟨15, 0, 0, 0, 0, 0⟩
  | .hardHiZ => ⟨16, 0, 0, 0, 0, 0⟩
  | .stepClock dir => ⟨17, 0, 0, dir, 0, 0⟩
  | .getStatus => ⟨18, 0, 0, 0, 0, 0⟩
  | .getPos => ⟨19, 0, 0, 0, 0, 0⟩
  | .getMark => ⟨20, 0, 0, 0, 0, 0⟩
  | .setPos value => ⟨21, 0, 0, 0, value, 0⟩
  | .setMark value => ⟨22, 0, 0, 0, value, 0⟩
  | .setElPos value => ⟨23, 0, 0, 0, value, 0⟩

/-- A request that names no operation. -/
def unknownRequest : Request := ⟨24, 0, 0, 0, 0, 0⟩

/-! ## The transaction on the bus -/

/-- The bits of the opcode byte that hold a register identifier, by the opcode table (`000rrrrr`,
`001rrrrr`). PRESUMED (log 17): the source does not give the field's width (R89). -/
def regField : Byte := 0x1F

/-- One row of the opcode map (R90): the opcode bytes are those that agree with `pattern` in the bits
of `mask`; `make` builds the operation from the byte, its value operand 0. -/
structure OpcodeRow where
  mask : Byte
  pattern : Byte
  make : Byte → Instr

/-- The opcode map of R90 in terms of the named constants. The accessors' rows stand before the rows of
setParam and getParam, whose bytes they share (R182 to R184): the first row that fits is taken. `run`
and `goUntil` have the bytes of runRaw and goUntilRaw (R94) and no row of their own. DESIGN CHOICE (log 35):
an opcode byte with `ACT` = 1, which every non-zero action sends (R88), is read as action 1. -/
def opcodeRows (c : Cfg) : List OpcodeRow :=
  [⟨0xFF, c.goHomeOp, fun _ => .goHome⟩,
   ⟨0xFF, c.goMarkOp, fun _ => .goMark⟩,
   ⟨0xFF, c.resetPosOp, fun _ => .resetPos⟩,
   ⟨0xFF, c.resetDevOp, fun _ => .resetDev⟩,
   ⟨0xFF, c.softStopOp, fun _ => .softStop⟩,
   ⟨0xFF, c.hardStopOp, fun _ => .hardStop⟩,
   ⟨0xFF, c.softHiZOp, fun _ => .softHiZ⟩,
   ⟨0xFF, c.hardHiZOp, fun _ => .hardHiZ⟩,
   ⟨0xFE, c.stepClockBase, fun b => .stepClock (b &&& 1)⟩,
   ⟨0xFF, c.getStatusOp, fun _ => .getStatus⟩,
   ⟨0xFE, c.runBase, fun b => .runRaw (b &&& 1) 0⟩,
   ⟨0xFE, c.moveBase, fun b => .move (b &&& 1) 0⟩,
   ⟨0xFF, c.gotoBase, fun _ => .goTo 0⟩,
   ⟨0xFE, c.gotoDirBase, fun b => .goToDir (b &&& 1) 0⟩,
   ⟨0xF6, c.goUntilBase, fun b => .goUntilRaw ((b >>> 3) &&& 1) (b &&& 1) 0⟩,
   ⟨0xFF, c.getParamBase ||| c.absPos, fun _ => .getPos⟩,
   ⟨0xFF, c.getParamBase ||| c.mark, fun _ => .getMark⟩,
   ⟨0xFF, c.setParamBase ||| c.absPos, fun _ => .setPos 0⟩,
   ⟨0xFF, c.setParamBase ||| c.mark, fun _ => .setMark 0⟩,
   ⟨0xFF, c.setParamBase ||| c.elPos, fun _ => .setElPos 0⟩,
   ⟨~~~regField, c.setParamBase, fun b => .setParam (b &&& regField) 0⟩,
   ⟨~~~regField, c.getParamBase, fun b => .getParam (b &&& regField)⟩]

/-- The operation an opcode byte selects, its value operand 0. -/
def decodeOpcode (c : Cfg) (b : Byte) : Option Instr :=
  ((opcodeRows c).find? (fun row => b &&& row.mask == row.pattern)).map (fun row => row.make b)

/-- The identifier of the parameter an operation accesses (R83, R84, R180 to R184). -/
def Instr.regId (c : Cfg) : Instr → Option Byte
  | .setParam id _ => some id
  | .getParam id => some id
  | .getPos => some c.absPos
  | .getMark => some c.mark
  | .setPos _ => some c.absPos
  | .setMark _ => some c.mark
  | .setElPos _ => some c.elPos
  | .runRaw _ _ => none
  | .run _ _ => none
  | .move _ _ => none
  | .goTo _ => none
  | .goToDir _ _ => none
  | .goUntilRaw _ _ _ => none
  | .goUntil _ _ _ => none
  | .goHome => none
  | .goMark => none
  | .resetPos => none
  | .resetDev => none
  | .softStop => none
  | .hardStop => none
  | .softHiZ => none
  | .hardHiZ => none
  | .stepClock _ => none
  | .getStatus => none

/-- How many bytes follow the opcode byte (R80, R92); nothing where the identifier is not in the
registry. -/
def Instr.followers (c : Cfg) (i : Instr) : Option Nat :=
  match i.regId c with
  | some id => (c.widthOf id).map Machine.byteCount
  | none =>
    match i.format with
    | .p3 => some Machine.cmdPayloadBytes
    | .s2 => some Machine.statusBytes
    | .z => some 0
    | .pw => some 0
    | .pr => some 0

/-- The position operand that a 3-byte payload was cut from: a payload above the maximum can only come
from a negative position (R135), whose top byte is read as all ones (log 16); at or below it the top byte is
read as 0, though a larger or a negative position can send the same bytes (log 36). -/
def gotoOperand (p : Word) : Word := if Machine.maxGotoPos.ult p then p ||| 0xFF000000 else p

/-- The operation with the value operand its payload carries; a payload that the clamp never lets out is
rejected by name. DESIGN CHOICE (log 34): the bytes of a value that never go on the bus (the top byte of a
setPos or setMark operand, R182, R183; the bytes above the width of a setParam or setElPos value) are read as
0, so the bytes of setMark(-2) give setMark 0xFFFFFE. DESIGN CHOICE (log 36): a motion payload equal to the
command's maximum, which every larger word sends too (R93, R131), is read as the maximum itself. -/
def Instr.withPayload (i : Instr) (p : Word) : Except DecodeError Instr :=
  match i with
  | .runRaw dir _ => if Machine.maxRunSpeed.ult p then .error (.overMaximum p) else .ok (.runRaw dir p)
  | .move dir _ => if Machine.maxMoveSteps.ult p then .error (.overMaximum p) else .ok (.move dir p)
  | .goUntilRaw action dir _ =>
    if Machine.maxGoUntilSpeed.ult p then .error (.overMaximum p) else .ok (.goUntilRaw action dir p)
  | .goTo _ => .ok (.goTo (gotoOperand p))
  | .goToDir dir _ => .ok (.goToDir dir (gotoOperand p))
  | .setParam id _ => .ok (.setParam id p)
  | .setPos _ => .ok (.setPos p)
  | .setMark _ => .ok (.setMark p)
  | .setElPos _ => .ok (.setElPos p)
  | .run dir f => .ok (.run dir f)
  | .goUntil action dir f => .ok (.goUntil action dir f)
  | .getParam id => .ok (.getParam id)
  | .goHome => .ok .goHome
  | .goMark => .ok .goMark
  | .resetPos => .ok .resetPos
  | .resetDev => .ok .resetDev
  | .softStop => .ok .softStop
  | .hardStop => .ok .hardStop
  | .softHiZ => .ok .softHiZ
  | .hardHiZ => .ok .hardHiZ
  | .stepClock dir => .ok (.stepClock dir)
  | .getStatus => .ok .getStatus
  | .getPos => .ok .getPos
  | .getMark => .ok .getMark

/-- The operation with the bytes that follow its opcode byte: `DUMMY` bytes of a read, the payload of a
write (R80). -/
def Instr.withFollowers (c : Cfg) (i : Instr) (bs : List Byte) : Except DecodeError Instr :=
  match i.format with
  | .pr => if bs.all (· == c.dummy) then .ok i else .error .notDummy
  | .s2 => if bs.all (· == c.dummy) then .ok i else .error .notDummy
  | .p3 => i.withPayload (Machine.rxAssemble bs)
  | .pw => i.withPayload (Machine.rxAssemble bs)
  | .z => .ok i

/-- Cuts the first transaction from the bytes the block has sent (R92): the operation and the bytes
after it, or the name of what is wrong. -/
def decode (c : Cfg) (bytes : List Byte) : Except DecodeError (Instr × List Byte) :=
  match bytes with
  | [] => .error .empty
  | b :: rest =>
    match decodeOpcode c b with
    | none => .error (.unknownOpcode b)
    | some i =>
      match i.followers c with
      | none => .error (.unregistered (b &&& regField))
      | some n =>
        if rest.length < n then .error .truncated
        else
          match i.withFollowers c (rest.take n) with
          | .ok j => .ok (j, rest.drop n)
          | .error e => .error e

/-- The opcode byte of an operation in terms of the named constants (R86, R90). -/
def Instr.opcodeByte (c : Cfg) : Instr → Byte
  | .setParam id _ => c.setParamBase ||| id
  | .getParam id => c.getParamBase ||| id
  | .runRaw dir _ => c.runBase ||| dir
  | .run dir _ => c.runBase ||| dir
  | .move dir _ => c.moveBase ||| dir
  | .goTo _ => c.gotoBase
  | .goToDir dir _ => c.gotoDirBase ||| dir
  | .goUntilRaw action dir _ => c.goUntilBase ||| (if action.toNat > 0 then 0x08 else 0x00) ||| dir
  | .goUntil action dir _ => c.goUntilBase ||| (if action.toNat > 0 then 0x08 else 0x00) ||| dir
  | .goHome => c.goHomeOp
  | .goMark => c.goMarkOp
  | .resetPos => c.resetPosOp
  | .resetDev => c.resetDevOp
  | .softStop => c.softStopOp
  | .hardStop => c.hardStopOp
  | .softHiZ => c.softHiZOp
  | .hardHiZ => c.hardHiZOp
  | .stepClock dir => c.stepClockBase ||| dir
  | .getStatus => c.getStatusOp
  | .getPos => c.getParamBase ||| c.absPos
  | .getMark => c.getParamBase ||| c.mark
  | .setPos _ => c.setParamBase ||| c.absPos
  | .setMark _ => c.setParamBase ||| c.mark
  | .setElPos _ => c.setParamBase ||| c.elPos

/-- The word whose low bytes an operation sends: the clamped value of a motion command, the value as
given of a parameter write (R93). -/
def Instr.sentWord : Instr → Word
  | .runRaw _ speed => Machine.clampU speed Machine.maxRunSpeed
  | .run _ f => Machine.clampU (Config.speedConv f) Machine.maxRunSpeed
  | .move _ steps => Machine.clampU steps Machine.maxMoveSteps
  | .goTo pos => Machine.clampS pos Machine.maxGotoPos
  | .goToDir _ pos => Machine.clampS pos Machine.maxGotoPos
  | .goUntilRaw _ _ speed => Machine.clampU speed Machine.maxGoUntilSpeed
  | .goUntil _ _ f => Machine.clampU (Config.speedConv f) Machine.maxGoUntilSpeed
  | .setParam _ value => value
  | .setPos value => value
  | .setMark value => value
  | .setElPos value => value
  | .getParam _ => 0
  | .goHome => 0
  | .goMark => 0
  | .resetPos => 0
  | .resetDev => 0
  | .softStop => 0
  | .hardStop => 0
  | .softHiZ => 0
  | .hardHiZ => 0
  | .stepClock _ => 0
  | .getStatus => 0
  | .getPos => 0
  | .getMark => 0

/-- The bytes a well-formed operation sends, opcode byte first (R80 to R85); nothing where its
identifier is not in the registry, since no byte is then sent (R91 (d)). -/
def encode (c : Cfg) (i : Instr) : Option (List Byte) :=
  (i.followers c).map fun n =>
    i.opcodeByte c ::
      match i.format with
      | .pr => List.replicate n c.dummy
      | .s2 => List.replicate n c.dummy
      | .p3 => Machine.txBytes i.sentWord n
      | .pw => Machine.txBytes i.sentWord n
      | .z => []

/-- The operations that the decoder gives back from their bytes on the bus: the direction is a single bit and
the action 0 or 1, the value is one the bytes carry whole, the identifier fits its field and is no accessor's,
and the speed is an integer (R88, R93, R94, R182 to R184). That the action is 1 and the value the one that the
bytes carry, of all that send the same bytes, is log 34, 35 and 36. -/
def Instr.busExact (c : Cfg) (i : Instr) : Bool :=
  i.wf &&
  match i with
  | .setParam id value =>
    id &&& regField == id && id != c.absPos && id != c.mark && id != c.elPos
      && (match c.widthOf id with
          | some w => decide (value.toNat < 2 ^ (8 * Machine.byteCount w))
          | none => false)
  | .getParam id =>
    id &&& regField == id && id != c.absPos && id != c.mark && (c.widthOf id).isSome
  | .runRaw _ speed => decide (speed.toNat ≤ 0xFFFFF)
  | .run _ _ => false
  | .move _ steps => decide (steps.toNat ≤ 0x3FFFFF)
  | .goTo pos => decide (pos.toNat ≤ 0x3FFFFF) || decide (0xFF400000 ≤ pos.toNat)
  | .goToDir _ pos => decide (pos.toNat ≤ 0x3FFFFF) || decide (0xFF400000 ≤ pos.toNat)
  | .goUntilRaw action _ speed => decide (action.toNat ≤ 1) && decide (speed.toNat ≤ 0x3FFFFF)
  | .goUntil _ _ _ => false
  | .setPos value => decide (value.toNat < 2 ^ 24)
  | .setMark value => decide (value.toNat < 2 ^ 24)
  | .setElPos value =>
    match c.widthOf c.elPos with
    | some w => decide (value.toNat < 2 ^ (8 * Machine.byteCount w))
    | none => false
  | .goHome => true
  | .goMark => true
  | .resetPos => true
  | .resetDev => true
  | .softStop => true
  | .hardStop => true
  | .softHiZ => true
  | .hardHiZ => true
  | .stepClock _ => true
  | .getStatus => true
  | .getPos => true
  | .getMark => true

/-! ## The opcode table's words -/

/-- The operation the decoder reads from a word of spec/opcode_table.json. A row's bits are the 8 bits of
its opcode byte, which the table computes from the default constants; every operand byte above them is
0, so the value operand is 0. DESIGN CHOICE (log 16): the answer is the opcode map's, without the
registry, so that an unregistered identifier too gives its row's operation. -/
def decodeTableWord (nbits w : Nat) : Option Instr :=
  if nbits = 8 ∧ w < 256 then decodeOpcode defaultCfg (BitVec.ofNat 8 w) else none

end Sys2Proof
end

