-- ==== Sys2Proof/Machine/State.lean ====
section
/-! DEFINITION. The state of the block and of what surrounds it, as plain data; the reasons a step can
stop; and the state after reset (10_state.md R20 to R33). -/

namespace Sys2Proof.Machine

/-- `PHASE` (R21, R22): whether an operation is in progress. -/
inductive Phase where
  | idle
  | busy
deriving DecidableEq, Repr

/-- One event of the bus trace (R25): the byte sent and the byte received; none received where the
exchange failed (60_exceptions.md R193). -/
structure BusEvent where
  out : Byte
  inn : Option Byte
deriving DecidableEq, Repr

/-- The two errors an operation can end with (R190, R194). `ValueOutOfRange` is never raised (R192). -/
inductive BlockError where
  | invalidRegister (id : Byte)
  | transportFailure
deriving DecidableEq, Repr

/-- What an operation delivers to the host when it ends (00_scope.md R11). -/
inductive Reply where
  /-- `Ok` with no value. -/
  | ok
  /-- `Ok(v)`. -/
  | value (v : Word)
  /-- `Err(E)`. -/
  | error (e : BlockError)
deriving DecidableEq, Repr

/-- What another agent does while an operation is in progress that lies outside the contract: a second
request (R205), its own bytes on the bus (R63, R222), a write of `IE` (U15). -/
inductive Intrusion where
  | request
  | busTraffic
  | ieWrite
deriving DecidableEq, Repr

/-- What the outside world does at the block's exchange points, one entry after the other: the
transport answers (R10), an interrupt arrives (R197), the block is reset (R220), another agent breaks
the contract. -/
inductive Input where
  | answer (a : Answer)
  | interrupt
  | reset
  | intrusion (k : Intrusion)
deriving DecidableEq, Repr

/-- What the host does next while the block is idle: present a request (R95), write `IE` (R23: other
agents may write it when the block is idle), or reset the block (R220). -/
inductive HostAction where
  | request (r : Request)
  | setIE (b : Bool)
  | reset
deriving DecidableEq, Repr

/-- The state. `phase` to `trace` are the spec's own (R21, R23, R25); `cfg` is the configuration, an
argument of the model that no step writes (log 1); `host`, `inputs`, `replies`, `irqWaiting` and
`irqTaken` are what surrounds the block; `fmt`, `undelivered` and `draws` are the model's own. -/
structure State where
  /-- `PHASE`. -/
  phase : Phase
  /-- `TXQ`: the bytes still to be shifted out, first to go first. -/
  txq : List Byte
  /-- `RXN`: how many of the last exchanges contribute to the result. -/
  rxn : Nat
  /-- `ACC`: the response assembled so far. -/
  acc : Word
  /-- `WREG`: the bit width looked up for this operation. -/
  wreg : Nat
  /-- `SGN`: the result takes the position-class decode path. -/
  sgn : Bool
  /-- `IES`: the value `IE` had when the critical section was entered, or empty. -/
  ies : Option Bool
  /-- `IE`: the platform's global interrupt enable. -/
  ie : Bool
  /-- `TRACE`: the exchanges made so far. -/
  trace : List BusEvent
  /-- The format of the operation in progress, whose rule computes the result (R22 (c)). -/
  fmt : Format
  /-- The outcomes delivered to the host, in order. -/
  replies : List Reply
  /-- The operation last accepted has not delivered its outcome (R233, log 32). -/
  undelivered : Bool
  /-- What the host has still to do. -/
  host : List HostAction
  /-- The script of the outside world; past its end the transport's answers are free values. -/
  inputs : List Input
  /-- How many free values have been drawn. -/
  draws : Nat
  /-- Interrupts that arrived while `IE = 0` and wait (R197). -/
  irqWaiting : Nat
  /-- Interrupts the platform has taken. -/
  irqTaken : Nat
  /-- The configuration (R5). -/
  cfg : Cfg
deriving DecidableEq, Repr

/-- The reasons the machine stops with a fault. There are none: the block's errors are outcomes of
operations, and a hang leaves it busy for ever (R199, R201, log 24). -/
inductive Fault where
deriving DecidableEq, Repr

/-- The reasons a step has no meaning (R11). -/
inductive Refusal where
  /-- Raised by an arm of `exec` whose instruction has no meaning yet. Safe. -/
  | notModelled (mnemonic : String)
  /-- Raised by an operation whose direction operand has a bit other than bit 0 set: "undefined by
  contract" (R87, U1, D12). Safe. -/
  | directionBits (dir : Byte)
  /-- Raised by every operation where the configuration is not well formed (R6, D26). Safe. -/
  | illFormedConfiguration
  /-- Raised by every operation presented while the block is busy, and by a request that arrives in
  mid-transaction (R205, D19). Safe. -/
  | requestWhileBusy
  /-- Raised in mid-transaction by another agent's bytes on the bus (R63, R222, U3). Safe. -/
  | busNotExclusive
  /-- Raised in mid-transaction by another agent's write of `IE` (R23, U15, log 19). Safe. -/
  | foreignInterruptWrite
  /-- Raised by `step` on a request whose operation number is 24 or more (R95). Safe. -/
  | operationNumber (op : Nat)
deriving DecidableEq, Repr

/-- The state after reset (R31): idle, nothing queued, nothing saved, the trace empty, the configuration at its
value. DESIGN CHOICE (log 12, 13): the working registers R31 leaves unspecified are 0 and `WREG` 1, and `IE` is
1. Unsafe, except that no operation reads the former. DESIGN CHOICE (log 37): the script of the outside world is
empty, so (log 21) no interrupt, reset or intrusion arrives in a run from here; R12 gives no such start. The
model's other fields are at the values of log 7, 10, 15, 20 and 32. -/
def State.reset : State where
  phase := .idle
  txq := []
  rxn := 0
  acc := 0
  wreg := 1
  sgn := false
  ies := none
  ie := true
  trace := []
  fmt := .z
  replies := []
  undelivered := false
  host := []
  inputs := []
  draws := 0
  irqWaiting := 0
  irqTaken := 0
  cfg := defaultCfg

end Sys2Proof.Machine
end

