-- ==== Sys2Proof/Machine/Flags.lean ====
section
/-! DEFINITION. The one flag the block touches, the platform's interrupt enable `IE` (10_state.md R23).
There are no condition codes and no sticky error flag (R24). -/

namespace Sys2Proof.Machine

/-- Writes `IE`. When it becomes 1 the platform takes the interrupts that waited (60_exceptions.md
R197). -/
def State.writeIE (b : Bool) (s : State) : State :=
  { s with
    ie := b
    irqTaken := if b then s.irqTaken + s.irqWaiting else s.irqTaken
    irqWaiting := if b then 0 else s.irqWaiting }

/-- Enters the critical section of the status read (43_status_reader.md R170, R171): `IES <- IE`, then
`IE <- 0`. -/
def State.enterCritical (s : State) : State := { s.writeIE false with ies := some s.ie }

/-- Leaves it, on every way out: where `IES` is not empty, `IE <- IES` and `IES <- empty` (R171 (c),
R199 (2)). -/
def State.restoreIE (s : State) : State :=
  match s.ies with
  | some b => { s.writeIE b with ies := none }
  | none => s

/-- An interrupt that arrives while `IE = 0` waits (R197). -/
def State.holdInterrupt (s : State) : State := { s with irqWaiting := s.irqWaiting + 1 }

/-- An interrupt that arrives while `IE = 1` is taken: its handler runs between two exchanges and changes
nothing of the block (R23, R197). -/
def State.takeInterrupt (s : State) : State := { s with irqTaken := s.irqTaken + 1 }

end Sys2Proof.Machine
end

