-- ==== Sys2Proof/Machine/Ops.lean ====
section
/-! DEFINITION. The shared operations every meaning is built from: the sequencer of 10_state.md R22
(accept, exchange step, complete), raising an error (60_exceptions.md R199) and, beside it, the return
to idle, the reset (70_reset_and_hazards.md R220), and the transfers of R110, R130 and R150. -/

namespace Sys2Proof.Machine

/-- The outcome of a step of this machine. -/
abbrev Result := Host.Outcome State Fault Refusal

/-! ## Ending an operation -/

/-- Delivers an outcome to the host (R22 (c), R196): none is outstanding then (R233, log 32). -/
def State.deliver (r : Reply) (s : State) : State :=
  { s with replies := s.replies ++ [r], undelivered := false }

/-- `raise E` (R199): the bytes not yet sent are dropped, `IE` is restored if it was saved, the block goes
idle, `Err(E)` goes to the host. Nothing is saved and no mode changes. The return from it is that the
block is idle (R200). DESIGN CHOICE (log 33): the working registers keep the ended operation's values, a
partial `ACC` among them, where U18 allows any. -/
def State.raise (e : BlockError) (s : State) : State :=
  { ({ s with txq := [] } : State).restoreIE with phase := .idle }.deliver (.error e)

/-- The result an operation's rule computes from `ACC` when every byte has been exchanged (R22 (c)): the
masked response of a parameter read, sign-extended on the position-class path (R112, R180, R181); the
two status bytes whole (R170); no value for the other formats. -/
def State.result (s : State) : Reply :=
  match s.fmt with
  | .pr => .value (if s.sgn then signExt22 (mask s.acc s.wreg) else mask s.acc s.wreg)
  | .s2 => .value s.acc
  | .z => .ok
  | .p3 => .ok
  | .pw => .ok

/-- Completion (R22 (c)): `IE` restored if it was saved, the block idle, the outcome delivered. DESIGN
CHOICE (log 33): the working registers keep the ended operation's values, where U18 allows any. -/
def State.complete (s : State) : State :=
  { s.restoreIE with phase := .idle }.deliver s.result

/-! ## Exchanges -/

/-- An exchange that returned the byte `r` (R10, R22 (b)): the event stands in the trace, the byte leaves
`TXQ`, and `r` enters `ACC` if this is one of the last `RXN` exchanges. -/
def State.exchanged (r : Byte) (s : State) : State :=
  match s.txq with
  | [] => s
  | b :: rest =>
    { s with
      trace := s.trace ++ [⟨b, some r⟩]
      txq := rest
      acc := if rest.length < s.rxn then shiftIn s.acc r else s.acc }

/-- An exchange that failed (R193): the attempt stands in the trace with no received byte, and
`TransportFailure` is raised. -/
def State.exchangeFails (s : State) : State :=
  match s.txq with
  | [] => s
  | b :: _ => ({ s with trace := s.trace ++ [⟨b, none⟩] } : State).raise .transportFailure

/-- A reset of the block (R31, R220): idle, nothing queued, nothing saved, the trace empty, no outcome
delivered (one that was outstanding stays so, log 32), no byte exchanged; the working registers take the
values of `State.reset` (log 12), and `IE` becomes whatever the platform's reset makes it (U20, log 14). -/
def State.blockReset (s : State) : State :=
  ({ s with
     phase := .idle, txq := [], rxn := 0, acc := 0, wreg := 1, sgn := false, ies := none
     trace := [], fmt := .z, draws := s.draws + 1 } : State).writeIE (Config.ieAfterReset s.draws)

/-- Why a step stops at an intrusion (R63, R205, R222, U3, U15). -/
def Intrusion.refusal : Intrusion → Refusal
  | .request => .requestWhileBusy
  | .busTraffic => .busNotExclusive
  | .ieWrite => .foreignInterruptWrite

/-- The exchanges past the end of the script: each answer is a free value of Config (R10, U5). The list
is `TXQ`. A hang leaves the state as it is: `BUSY`, not final (R201). -/
def State.exchangeFree : List Byte → State → State
  | [], s => s.complete
  | _ :: rest, s =>
    match Config.freeAnswer s.draws with
    | .byte r => State.exchangeFree rest (State.exchanged r { s with draws := s.draws + 1 })
    | .fail => State.exchangeFails { s with draws := s.draws + 1 }
    | .hang => s

/-- Runs the sequencer (R22 (b), (c)) against the script of the outside world (the list is `inputs`) until the
operation ends, hangs, or is preempted: one exchange for each answer, in order; a failed one raises; one that
never returns leaves the block busy with the entry in place (R201). An interrupt is taken, and the step ends
there with the block busy, exactly when `IE = 1`; while `IE = 0` it waits (R23, R197). DESIGN CHOICE (log 31):
nothing that stands in the script behind a hang reaches the block, not even a reset. DESIGN CHOICE (log 26):
with nothing left to send the operation completes at once, so neither an interrupt nor a reset or an intrusion
comes between its last exchange and its completion (R22 (c), R220). -/
def State.serve : List Input → State → Result
  | [], s => .next (State.exchangeFree s.txq s)
  | x :: rest, s =>
    if s.txq = [] then .next s.complete
    else
      match x with
      | .answer (.byte r) => State.serve rest (State.exchanged r { s with inputs := rest })
      | .answer .fail => .next (State.exchangeFails { s with inputs := rest })
      | .answer .hang => .next s
      | .interrupt =>
        if s.ie then .next (State.takeInterrupt { s with inputs := rest })
        else State.serve rest (State.holdInterrupt { s with inputs := rest })
      | .reset => .next (State.blockReset { s with inputs := rest })
      | .intrusion k => .refused k.refusal

/-- The sequencer from the state as it stands: after acceptance, and when a preempted or hung operation
goes on. -/
def State.resume (s : State) : Result := s.serve s.inputs

/-! ## Accepting an operation -/

/-- Acceptance (R22 (a)): `TXQ` is the whole transaction, opcode byte first, `RXN` is set, `ACC` is
cleared, the block is busy; its outcome is outstanding from here on (log 32). -/
def State.accept (f : Format) (bytes : List Byte) (rxn : Nat) (s : State) : State :=
  { s with phase := .busy, txq := bytes, rxn := rxn, acc := 0, fmt := f, undelivered := true }

/-- The checks before anything else (R198 (1), R6): a request while busy and an ill-formed
configuration are refused. -/
def State.whenIdle (s : State) (k : Result) : Result :=
  match s.phase with
  | .busy => .refused .requestWhileBusy
  | .idle => if s.cfg.wf then k else .refused .illFormedConfiguration

/-- `require dir[7:1] = 0` (R87, R198 (1), U1): otherwise refused. -/
def withDirection (dir : Byte) (k : Result) : Result :=
  if dirLegal dir then k else .refused (.directionBits dir)

/-- `SendCommand0(opc)` (42_zero_payload_commands.md R150, format Z). -/
def sendCommand0 (opc : Byte) (s : State) : Result := (s.accept .z [opc] 0).resume

/-- `SendCommand3(opc, p)` (41_motion_commands.md R130, format P3). -/
def sendCommand3 (opc : Byte) (p : Word) (s : State) : Result :=
  (s.accept .p3 (opc :: txBytes p cmdPayloadBytes) 0).resume

/-- The write of a parameter (40_param_codec.md R111, format PW): the width from the registry or
`InvalidRegister` before any exchange, then the opcode byte and the value's bytes. -/
def writeParam (id : Byte) (value : Word) (s : State) : Result :=
  match s.cfg.widthOf id with
  | none => .next (s.raise (.invalidRegister id))
  | some w =>
    ({ s.accept .pw ((s.cfg.setParamBase ||| id) :: txBytes value (byteCount w)) 0 with
       wreg := w } : State).resume

/-- The read of a parameter (R112, format PR), with the decode path `signed` (R180, R181): `DUMMY` is sent
for each byte that comes back. -/
def readParam (id : Byte) (signed : Bool) (s : State) : Result :=
  match s.cfg.widthOf id with
  | none => .next (s.raise (.invalidRegister id))
  | some w =>
    ({ s.accept .pr
         ((s.cfg.getParamBase ||| id) :: txBytes (dummyWord s.cfg.dummy) (byteCount w))
         (byteCount w) with
       wreg := w, sgn := signed } : State).resume

/-- The position-class read (44_position_accessors.md R180, R181): the decode path is the registry's
`signed` attribute (R61, R115). -/
def readPosition (id : Byte) (s : State) : Result :=
  readParam id ((s.cfg.signedOf id).getD false) s

end Sys2Proof.Machine
end

