-- ==== Sys2Proof/Machine/Accessors.lean ====
section
/-! DEFINITION. The position and mark accessors (44_position_accessors.md): fixed-identifier forms of
getParam and setParam. -/

namespace Sys2Proof.Machine

/-- `getPos()` is `SignExt22(getParam(ABS_POS))` (R180). -/
def execGetPos (s : State) : Result := s.whenIdle (readPosition s.cfg.absPos s)

/-- `getMark()` is `SignExt22(getParam(MARK))` (R181). -/
def execGetMark (s : State) : Result := s.whenIdle (readPosition s.cfg.mark s)

/-- `setPos(v)` is `setParam(ABS_POS, v)` (R182): no clamp, no mask, no sign handling. -/
def execSetPos (value : Word) (s : State) : Result :=
  s.whenIdle (writeParam s.cfg.absPos value s)

/-- `setMark(v)` is `setParam(MARK, v)` (R183). -/
def execSetMark (value : Word) (s : State) : Result :=
  s.whenIdle (writeParam s.cfg.mark value s)

/-- `setElPos(v)` is `setParam(EL_POS, v)` (R184). -/
def execSetElPos (value : Word) (s : State) : Result :=
  s.whenIdle (writeParam s.cfg.elPos value s)

end Sys2Proof.Machine
end

