-- ==== Sys2Proof/Machine/MotionCommands.lean ====
section
/-! DEFINITION. CommandEncoder, the motion commands with a 3-byte payload (41_motion_commands.md): the
value is clamped to the command's own maximum before transmission (R131, R229). -/

namespace Sys2Proof.Machine

/-- `runRaw(dir, speed)` (R132). -/
def execRunRaw (dir : Byte) (speed : Word) (s : State) : Result :=
  s.whenIdle (withDirection dir
    (sendCommand3 (opcode s.cfg.runBase 0 (dirBit dir)) (clampU speed maxRunSpeed) s))

/-- `run(dir, stepsPerSec)` is `runRaw(dir, SpeedConv(stepsPerSec))` (R133, R139). -/
def execRun (dir : Byte) (stepsPerSec : FValue) (s : State) : Result :=
  execRunRaw dir (Config.speedConv stepsPerSec) s

/-- `move(dir, steps)` (R134). -/
def execMove (dir : Byte) (steps : Word) (s : State) : Result :=
  s.whenIdle (withDirection dir
    (sendCommand3 (opcode s.cfg.moveBase 0 (dirBit dir)) (clampU steps maxMoveSteps) s))

/-- `goTo(pos)` (R135): no flag bits, the signed clamp. -/
def execGoTo (pos : Word) (s : State) : Result :=
  s.whenIdle (sendCommand3 s.cfg.gotoBase (clampS pos maxGotoPos) s)

/-- `goToDir(dir, pos)` (R136). -/
def execGoToDir (dir : Byte) (pos : Word) (s : State) : Result :=
  s.whenIdle (withDirection dir
    (sendCommand3 (opcode s.cfg.gotoDirBase 0 (dirBit dir)) (clampS pos maxGotoPos) s))

/-- `goUntilRaw(action, dir, speed)` (R137): the maximum is 0x3FFFFF (90_conflicts.md C1). -/
def execGoUntilRaw (action dir : Byte) (speed : Word) (s : State) : Result :=
  s.whenIdle (withDirection dir
    (sendCommand3 (opcode s.cfg.goUntilBase (actBit action) (dirBit dir))
      (clampU speed maxGoUntilSpeed) s))

/-- `goUntil(action, dir, stepsPerSec)` is `goUntilRaw(action, dir, SpeedConv(stepsPerSec))` (R138). -/
def execGoUntil (action dir : Byte) (stepsPerSec : FValue) (s : State) : Result :=
  execGoUntilRaw action dir (Config.speedConv stepsPerSec) s

end Sys2Proof.Machine
end

