-- ==== Sys2Proof/Machine/ParamCodec.lean ====
section
/-! DEFINITION. ParamCodec: setParam and getParam (40_param_codec.md). -/

namespace Sys2Proof.Machine

/-- `setParam(id, value)` (R111). -/
def execSetParam (id : Byte) (value : Word) (s : State) : Result :=
  s.whenIdle (writeParam id value s)

/-- `getParam(id)` (R112): unsigned for every identifier (decision D8). -/
def execGetParam (id : Byte) (s : State) : Result :=
  s.whenIdle (readParam id false s)

end Sys2Proof.Machine
end

