-- ==== Sys2Proof/Machine/StatusReader.lean ====
section
/-! DEFINITION. StatusReader: getStatus (43_status_reader.md). -/

namespace Sys2Proof.Machine

/-- `getStatus()` (R170): the status opcode, then two response bytes, high byte first, with `IE` held at 0
from before the first exchange to every way out when `CRITICAL_STATUS` is true (R171). The registry is
not consulted. -/
def execGetStatus (s : State) : Result :=
  s.whenIdle
    (let bytes := s.cfg.getStatusOp :: List.replicate statusBytes s.cfg.dummy
     let t := s.accept .s2 bytes statusBytes
     State.resume (if s.cfg.criticalStatus then t.enterCritical else t))

end Sys2Proof.Machine
end

