-- ==== Sys2Proof/Machine/ZeroPayload.lean ====
section
/-! DEFINITION. CommandEncoder, the zero-payload commands (42_zero_payload_commands.md): one opcode byte
each. -/

namespace Sys2Proof.Machine

/-- `goHome()` (R151). -/
def execGoHome (s : State) : Result :=
  s.whenIdle (sendCommand0 s.cfg.goHomeOp s)

/-- `goMark()` (R152). -/
def execGoMark (s : State) : Result :=
  s.whenIdle (sendCommand0 s.cfg.goMarkOp s)

/-- `resetPos()` (R153): one exchange, never turned into `setPos(0)` (R185). -/
def execResetPos (s : State) : Result :=
  s.whenIdle (sendCommand0 s.cfg.resetPosOp s)

/-- `resetDev()` (R154): it resets the chip, not the block. -/
def execResetDev (s : State) : Result :=
  s.whenIdle (sendCommand0 s.cfg.resetDevOp s)

/-- `softStop()` (R155). -/
def execSoftStop (s : State) : Result :=
  s.whenIdle (sendCommand0 s.cfg.softStopOp s)

/-- `hardStop()` (R156). -/
def execHardStop (s : State) : Result :=
  s.whenIdle (sendCommand0 s.cfg.hardStopOp s)

/-- `softHiZ()` (R157). -/
def execSoftHiZ (s : State) : Result :=
  s.whenIdle (sendCommand0 s.cfg.softHiZOp s)

/-- `hardHiZ()` (R158). -/
def execHardHiZ (s : State) : Result :=
  s.whenIdle (sendCommand0 s.cfg.hardHiZOp s)

/-- `stepClock(dir)` (R159): the one zero-payload command with a direction. -/
def execStepClock (dir : Byte) (s : State) : Result :=
  s.whenIdle (withDirection dir (sendCommand0 (opcode s.cfg.stepClockBase 0 (dirBit dir)) s))

end Sys2Proof.Machine
end

