-- ==== Sys2Proof/Machine/Dispatch.lean ====
section
/-! DEFINITION. The dispatch of an operation to its meaning. -/

namespace Sys2Proof.Machine

def exec (i : Instr) (s : State) : Host.Outcome State Fault Refusal :=
  match i with
  | .setParam id value => Sys2Proof.Machine.execSetParam id value s
  | .getParam id => Sys2Proof.Machine.execGetParam id s
  | .runRaw dir speed => Sys2Proof.Machine.execRunRaw dir speed s
  | .run dir stepsPerSec => Sys2Proof.Machine.execRun dir stepsPerSec s
  | .move dir steps => Sys2Proof.Machine.execMove dir steps s
  | .goTo pos => Sys2Proof.Machine.execGoTo pos s
  | .goToDir dir pos => Sys2Proof.Machine.execGoToDir dir pos s
  | .goUntilRaw action dir speed => Sys2Proof.Machine.execGoUntilRaw action dir speed s
  | .goUntil action dir stepsPerSec => Sys2Proof.Machine.execGoUntil action dir stepsPerSec s
  | .goHome => Sys2Proof.Machine.execGoHome s
  | .goMark => Sys2Proof.Machine.execGoMark s
  | .resetPos => Sys2Proof.Machine.execResetPos s
  | .resetDev => Sys2Proof.Machine.execResetDev s
  | .softStop => Sys2Proof.Machine.execSoftStop s
  | .hardStop => Sys2Proof.Machine.execHardStop s
  | .softHiZ => Sys2Proof.Machine.execSoftHiZ s
  | .hardHiZ => Sys2Proof.Machine.execHardHiZ s
  | .stepClock dir => Sys2Proof.Machine.execStepClock dir s
  | .getStatus => Sys2Proof.Machine.execGetStatus s
  | .getPos => Sys2Proof.Machine.execGetPos s
  | .getMark => Sys2Proof.Machine.execGetMark s
  | .setPos value => Sys2Proof.Machine.execSetPos value s
  | .setMark value => Sys2Proof.Machine.execSetMark value s
  | .setElPos value => Sys2Proof.Machine.execSetElPos value s

end Sys2Proof.Machine
end

