-- ==== Sys2Proof/Machine/Fetch.lean ====
section
/-! DEFINITION. What an idle block does with the host's next action: it accepts a request and runs it
(20_memory.md R62: operations in the order the host issues them, none before the outcome of the last),
or the host writes `IE` or resets the block. -/

namespace Sys2Proof.Machine

/-- The step of an idle block; with no host action it waits (70_reset_and_hazards.md R233). -/
def hostStep (s : State) : Host.Outcome State Fault Refusal :=
  match s.host with
  | [] => .next s
  | .setIE b :: rest => .next (State.writeIE b { s with host := rest })
  | .reset :: rest => .next (State.blockReset { s with host := rest })
  | .request r :: rest =>
    match decodeRequest r with
    | .ok i => exec i { s with host := rest }
    | .error _ => .refused (.operationNumber r.op)

/-- The request that presents the operation of an opcode-table word; a word that stands for none is
presented as a request of no operation. -/
def tableRequest (nbits w : Nat) : Request :=
  match decodeTableWord nbits w with
  | some i => encodeRequest i
  | none => unknownRequest

end Sys2Proof.Machine
end

