-- ==== Sys2Proof/Machine/Step.lean ====
section
/-! DEFINITION. One step of the machine (10_state.md R22). -/

namespace Sys2Proof.Machine

/-- One step: a busy block goes on with its operation, an idle one turns to the host. -/
def step (s : State) : Host.Outcome State Fault Refusal :=
  match s.phase with
  | .busy => s.resume
  | .idle => hostStep s

/-- The state with the operation that the opcode-table word `w` stands for presented as the host's next
request, so that the next step accepts it: the block is idle and the request stands first (log 15,
16). -/
def State.withFetchWord (s : State) (nbits w : Nat) : State :=
  { s with phase := .idle, host := .request (tableRequest nbits w) :: s.host }

end Sys2Proof.Machine
end

