-- ==== Sys2Proof/Machine/Response.lean ====
section
/-! DEFINITION. The response record in which the host receives an outcome (30_encoding.md R96,
60_exceptions.md R194). -/

namespace Sys2Proof.Machine

/-- The response record of 30_encoding.md R96. A value stands there only where it has a meaning. -/
structure Response where
  err : Nat
  value : Option Word
deriving DecidableEq, Repr

/-- The codes of 60_exceptions.md R194. -/
def Reply.response : Reply → Response
  | .ok => ⟨0, none⟩
  | .value v => ⟨0, some v⟩
  | .error (.invalidRegister _) => ⟨1, none⟩
  | .error .transportFailure => ⟨2, none⟩

end Sys2Proof.Machine
end

