-- ==== Sys2Proof/Safety.lean ====
section
/-! DEFINITION. The terms claims are stated in: the launch premises and the end of a run (10_state.md R33,
70_reset_and_hazards.md R233), the stuck states (60_exceptions.md R201), the invariant of the machine,
and what a transaction is and leaves, written from the rules and not from the meanings. -/

namespace Sys2Proof.Machine

/-! ## Which states -/

/-- The launch premises of R33 that are about the state: idle, `TXQ` empty, `IES` empty, the
configuration well formed. (Exclusive use of the bus is that no intrusion arrives.) -/
def State.Ready (s : State) : Prop :=
  s.phase = .idle ∧ s.txq = [] ∧ s.ies = none ∧ s.cfg.wf = true

/-- A run is over (R233): no request left to present, the last operation's outcome delivered, idle, `TXQ` and
`IES` empty. A write of `IE` or a reset that the host still has to make is no operation and does not bar it. A
run whose last operation a reset cut short is not over (log 32). -/
def State.Final (s : State) : Prop :=
  (∀ r, HostAction.request r ∉ s.host) ∧ s.undelivered = false ∧ s.phase = .idle ∧ s.txq = [] ∧ s.ies = none

/-- The exchange in progress never returns (R201); whatever the script holds behind it, a reset too, never
reaches the block (log 31). -/
def State.Hung (s : State) : Prop :=
  s.phase = .busy ∧ s.txq ≠ [] ∧ ∃ rest, s.inputs = .answer .hang :: rest

/-- No reset of the block is scripted to arrive in mid-operation. -/
def State.NoReset (s : State) : Prop := Input.reset ∉ s.inputs

/-- No other agent breaks the contract in mid-operation (R33: "no other agent uses the same bus during the
operation"). -/
def State.Undisturbed (s : State) : Prop := ∀ k, Input.intrusion k ∉ s.inputs

/-- The invariant every step keeps: the configuration is well formed; the working registers are in their
ranges (R21); `ACC` holds no more bits than the response bytes received (R141: no set bit is ever lost);
an idle block holds nothing (R33); a busy one has a byte to send (log 9, 26) and owes an outcome; a saved
`IE` means that a critical status read is in progress with `IE` at 0 (R171); no interrupt waits while `IE` is 1 (R197, log 10). -/
def State.Inv (s : State) : Prop :=
  s.cfg.wf = true ∧ s.rxn ≤ 3 ∧ (1 ≤ s.wreg ∧ s.wreg ≤ 22) ∧ s.txq.length ≤ 4 ∧
  s.acc.toNat < 2 ^ (8 * (s.rxn - s.txq.length)) ∧
  (s.phase = .idle → s.txq = [] ∧ s.ies = none) ∧
  (s.phase = .busy → s.txq ≠ [] ∧ s.undelivered = true) ∧
  (s.ies ≠ none → s.ie = false ∧ s.fmt = .s2 ∧ s.cfg.criticalStatus = true) ∧
  (s.ie = true → s.irqWaiting = 0)

/-! ## Ending, and interrupts that wait -/

/-- The state once the operation in progress has ended with outcome `r` (R22 (c), R199): nothing queued, the
block idle, `IE` written back where it was saved, and the interrupts that waited taken if it becomes 1
(R197), the outcome delivered. That the working registers keep their values is log 33. -/
def State.ended (s : State) (r : Reply) : State :=
  { s with
    phase := .idle
    txq := []
    ies := none
    ie := s.ies.getD s.ie
    irqTaken := if s.ies = some true then s.irqTaken + s.irqWaiting else s.irqTaken
    irqWaiting := if s.ies = some true then 0 else s.irqWaiting
    replies := s.replies ++ [r]
    undelivered := false }

/-- A script with the interrupts left out. -/
def quiet (ins : List Input) : List Input := ins.filter (· ≠ .interrupt)

/-- The script in which `n` interrupts arrive and then it goes on as `rest`. -/
def interrupts (n : Nat) (rest : List Input) : List Input := List.replicate n .interrupt ++ rest

/-- Operation `i` runs in `s` with `IE` at 0: it is 0 already, or the operation is a status read that clears
it (R171). -/
def State.Masked (s : State) (i : Instr) : Prop :=
  s.ie = false ∨ i = .getStatus ∧ s.cfg.criticalStatus = true

/-! ## The arithmetic of the rules, in their own words -/

/-- The low `n` bytes of a word as R83 lists them for `n` = 3, 2, 1: `v[23:16]`, `v[15:8]`, `v[7:0]`. -/
def lowBytes (n : Nat) (v : Word) : List Byte :=
  match n with
  | 1 => [v.extractLsb' 0 8]
  | 2 => [v.extractLsb' 8 8, v.extractLsb' 0 8]
  | 3 => [v.extractLsb' 16 8, v.extractLsb' 8 8, v.extractLsb' 0 8]
  | _ => []

/-- The number that bytes stand for, the first the most significant (R51, R54). -/
def bigEndian (rs : List Byte) : Nat := rs.foldl (fun n r => n * 256 + r.toNat) 0

/-- The integer a 22-bit two's-complement number stands for (R114). -/
def signed22 (n : Nat) : Int := if n < 2 ^ 21 then n else (n : Int) - 2 ^ 22

/-! ## What a transaction is and leaves -/

/-- A transaction as an operation's rule gives it: the bytes sent, opcode first; its format; how many of
the last exchanges contribute to the result; the working registers `WREG` and `SGN`; and `IE` and `IES`
while it is in progress. -/
structure Transaction where
  out : List Byte
  fmt : Format
  rxn : Nat
  wreg : Nat
  sgn : Bool
  ie : Bool
  ies : Option Bool
deriving DecidableEq, Repr

/-- A transaction of an operation that keeps no response and touches none of `WREG`, `SGN` and `IE`
(formats Z and P3). -/
def State.plain (s : State) (f : Format) (out : List Byte) : Transaction :=
  ⟨out, f, 0, s.wreg, s.sgn, s.ie, none⟩

/-- A parameter write of width `w` (format PW): no response kept, `WREG` written. -/
def State.paramWrite (s : State) (out : List Byte) (w : Nat) : Transaction :=
  ⟨out, .pw, 0, w, s.sgn, s.ie, none⟩

/-- A parameter read of width `w` and decode path `g` (format PR): every byte after the opcode kept. -/
def State.paramRead (s : State) (out : List Byte) (w : Nat) (g : Bool) : Transaction :=
  ⟨out, .pr, out.length - 1, w, g, s.ie, none⟩

/-- The status read (format S2): `IE` is 0 and saved throughout where `CRITICAL_STATUS` is true (R171). -/
def State.statusRead (s : State) : Transaction :=
  ⟨[s.cfg.getStatusOp, s.cfg.dummy, s.cfg.dummy], .s2, 2, s.wreg, s.sgn,
    if s.cfg.criticalStatus then false else s.ie, if s.cfg.criticalStatus then some s.ie else none⟩

/-- The events of exchanges that returned: each byte sent with the byte received (R25). -/
def events (out rs : List Byte) : List BusEvent := List.zipWith (fun b r => ⟨b, some r⟩) out rs

/-- The state with the first exchanges of transaction `x` made and answered by `rs`, the script of the
outside world at `rest`. -/
def State.midway (s : State) (x : Transaction) (rs : List Byte) (rest : List Input) : State :=
  { s with
    phase := .busy
    txq := x.out.drop rs.length
    rxn := x.rxn
    acc := BitVec.ofNat 32 (bigEndian (rs.drop (x.out.length - x.rxn)))
    wreg := x.wreg
    sgn := x.sgn
    ie := x.ie
    ies := x.ies
    trace := s.trace ++ events x.out rs
    fmt := x.fmt
    undelivered := true
    inputs := rest }

/-- The state after the transaction has ended `Ok`: every byte exchanged (R62 (c)), the block idle, `IE` as it
was, the outcome delivered. That the working registers keep the transaction's values is log 33, with log 25 for
`WREG` and `SGN` and log 22 for the `RXN` of a write. -/
def State.afterOk (s : State) (x : Transaction) (rs : List Byte) (rest : List Input) (r : Reply) :
    State :=
  { s.midway x rs rest with
    phase := .idle, txq := [], ie := s.ie, ies := none
    replies := s.replies ++ [r], undelivered := false }

/-- The script in which the transport answers with the bytes `rs` and then goes on as `rest`. -/
def answers (rs : List Byte) (rest : List Input) : List Input :=
  rs.map (fun r => .answer (.byte r)) ++ rest

/-- Operation `i`, begun in `s`, carries out transaction `x` with outcome `reply` of the bytes received:
when every exchange is answered it ends `Ok` in exactly that state; when an exchange fails it ends with
`TransportFailure`. -/
def Performs (i : Instr) (s : State) (x : Transaction) (reply : List Byte → Reply) : Prop :=
  (∀ rs rest, rs.length = x.out.length → s.inputs = answers rs rest →
    exec i s = .next (s.afterOk x rs rest (reply rs))) ∧
  (∀ rs rest, rs.length < x.out.length → s.inputs = answers rs (.answer .fail :: rest) →
    ∃ t, exec i s = .next t ∧ t.replies = s.replies ++ [.error .transportFailure])

end Sys2Proof.Machine
end

