-- ==== Sys2Proof/Certificates/Slice0/Obligations.lean ====
section
/-! DEFINITION. The statements for the provers, from the numbered rules of spec/. They speak of every state,
so of every configuration, and of every script of the outside world, unless a premise says otherwise.
`s.Ready` is the launch premises of 10_state.md R33. -/

open Sys2Proof Sys2Proof.Machine

/-! ## Presenting an operation, and the encodings -/

/-- R22, R62, R95: an idle block whose host presents a request runs exactly the operation the request
names, and the request is used up. -/
def Obligations.StepRunsThePresentedOperation : Prop :=
  ∀ (s : State) (r : Request) (rest : List HostAction) (i : Instr),
    s.phase = .idle → s.host = .request r :: rest → decodeRequest r = .ok i →
    step s = exec i { s with host := rest }

/-- R22 (b), (c) (the spec's own framing, D1): what the step of a busy block does, whether its operation has
just begun or was preempted and goes on, by what the script holds next. While a byte is left to send: a byte
answered sends the next byte of `TXQ`, puts the event in the trace and enters `ACC` if the exchange is one of
the last `RXN`, and the step goes on from there (that one step makes more than one exchange is log 9); a failed
exchange leaves the attempt in the trace, drops the bytes not yet sent and delivers `TransportFailure` (R193,
R199); one that never returns leaves the block as it is (R201; that the step answers the same state is log 8,
that nothing behind it in the script is reached is log 31); an interrupt is taken while `IE` is 1, and the step
ends there with the block busy, and waits while `IE` is 0, and the step goes on (R23, R197; the counters are log
10, that the step ends is log 9); a reset leaves the block idle and empty with the trace empty, `IE` a free
value (R220; log 14), nothing delivered, and the outcomes, the host's queue, the script and the configuration
kept (log 29, 32); an intrusion is refused by name (R63, R205, R222; a foreign write of `IE` is log 19). A busy
block with nothing left to send completes, whatever the script holds, a reset or an interrupt too (DESIGN
CHOICE, log 26): the result of the format in progress is delivered. Failure and completion write `IE` back from
`IES` where it was saved; the interrupts that waited are taken if it becomes 1 (R197, log 10). That the working
registers keep their values is log 33, that no outcome is outstanding then is log 32. -/
def Obligations.BusyStepMakesTheNextExchange : Prop :=
  (∀ (s : State) (b : Byte) (q : List Byte) (x : Input) (rest : List Input),
    s.phase = .busy → s.txq = b :: q → s.inputs = x :: rest →
    match x with
    | .answer (.byte r) => step s = step { s with
        inputs := rest
        txq := q
        trace := s.trace ++ [⟨b, some r⟩]
        acc := if (b :: q).length ≤ s.rxn then (s.acc <<< 8) ||| r.setWidth 32 else s.acc }
    | .answer .fail => step s = .next
        (({ s with inputs := rest, trace := s.trace ++ [⟨b, none⟩] } : State).ended
          (.error .transportFailure))
    | .answer .hang => step s = .next s
    | .interrupt =>
      if s.ie then step s = .next { s with inputs := rest, irqTaken := s.irqTaken + 1 }
      else step s = step { s with inputs := rest, irqWaiting := s.irqWaiting + 1 }
    | .reset => ∃ t, step s = .next t ∧ t.phase = .idle ∧ t.txq = [] ∧ t.ies = none ∧ t.trace = [] ∧
        t.ie = Config.ieAfterReset s.draws ∧ t.replies = s.replies ∧ t.undelivered = s.undelivered ∧
        t.cfg = s.cfg ∧ t.host = s.host ∧ t.inputs = rest
    | .intrusion k => step s = .refused (match k with
        | .request => .requestWhileBusy
        | .busTraffic => .busNotExclusive
        | .ieWrite => .foreignInterruptWrite)) ∧
  ∀ s : State, s.phase = .busy → s.txq = [] →
    step s = .next (s.ended
      (match s.fmt with
        | .pr => .value (if s.sgn then signExt22 (mask s.acc s.wreg) else mask s.acc s.wreg)
        | .s2 => .value s.acc
        | .z => .ok
        | .p3 => .ok
        | .pw => .ok))

/-- R95 (the numbering is the spec's own, D22): decoding the request record of an operation gives the operation
back; and an idle block refuses an operation number of 24 or more, with no byte exchanged. -/
def Obligations.RequestRecordsDecodeBack : Prop :=
  (∀ i : Instr, decodeRequest (encodeRequest i) = .ok i) ∧
  ∀ (s : State) (r : Request) (rest : List HostAction),
    s.phase = .idle → s.host = .request r :: rest → 24 ≤ r.op →
    step s = .refused (.operationNumber r.op)

/-- R90, with the default constants (PRESUMED, log 2) and the candidate registry (PRESUMED, log 3): opcode bytes
written out from the map's bit patterns decode to the operations they stand for, one of each family. That the
identifier field has 5 bits is PRESUMED (log 17); that bytes which several operations share decode to runRaw,
goUntilRaw and the accessors is the model's choice (log 16), and so is the top byte 0 of the setMark operand, a
byte that never goes on the bus (DESIGN CHOICE, log 34), and the action 1 of the goUntilRaw byte, which every
non-zero action sends (DESIGN CHOICE, log 35). -/
def Obligations.WrittenOutTransactionsDecode : Prop :=
  decode defaultCfg [0b00000101, 0x0A, 0xBC] = .ok (.setParam 0x05 0x0ABC, []) ∧
  decode defaultCfg [0b00111000, 0x00, 0x00] = .ok (.getParam 0x18, []) ∧
  decode defaultCfg [0b01010001, 0x01, 0x23, 0x45] = .ok (.runRaw 1 0x012345, []) ∧
  decode defaultCfg [0b10001011, 0x00, 0x00, 0x64] = .ok (.goUntilRaw 1 1 100, []) ∧
  decode defaultCfg [0b10111000] = .ok (.hardStop, []) ∧
  decode defaultCfg [0b01011001] = .ok (.stepClock 1, []) ∧
  decode defaultCfg [0b11010000, 0x00, 0x00] = .ok (.getStatus, []) ∧
  decode defaultCfg [0b00100001, 0x00, 0x00, 0x00] = .ok (.getPos, []) ∧
  decode defaultCfg [0b00000011, 0xFF, 0xFF, 0xFE] = .ok (.setMark 0xFFFFFE, [])

/-- R80 to R86, R92, with the default configuration (PRESUMED, log 2, 3) and the 5-bit identifier field
(PRESUMED, log 17): every operation that is `busExact` has a transaction, and cutting the first transaction from
a stream that begins with it gives the operation back and what follows. `busExact` leaves out run and goUntil,
whose bytes are runRaw's and goUntilRaw's (R94), setParam and getParam of an accessor's identifier, actions
above 1, and value operands that the bytes do not carry whole, one above a motion command's maximum among them;
which of the operations with the same bytes the decoder gives, and that a goTo payload above the maximum is read
as negative, is the model's choice (log 16); so is that the bytes of a value that never go on the bus are read
as 0 (DESIGN CHOICE, log 34), that `ACT` = 1 is read as action 1 (DESIGN CHOICE, log 35), and that a motion
payload equal to the maximum is read as the maximum, and a goTo payload up to it as itself (DESIGN CHOICE, log
36). -/
def Obligations.TransactionsDecodeBack : Prop :=
  ∀ (i : Instr) (rest : List Byte), i.busExact defaultCfg = true →
    ∃ bytes, encode defaultCfg i = some bytes ∧ decode defaultCfg (bytes ++ rest) = .ok (i, rest)

/-- The other direction, with the default configuration (PRESUMED, log 2, 3) and the 5-bit identifier field
(PRESUMED, log 17): whatever the decoder reads from a stream is a well-formed operation whose transaction is
exactly the bytes it consumed (which of the operations with the same bytes it gives is log 16; that the bytes of
a value that never go on the bus are read as 0 is log 34; which action and which motion operand it gives, where
several send the same bytes, is log 35 and 36). -/
def Obligations.DecodedTransactionsEncodeBack : Prop :=
  ∀ (bytes : List Byte) (i : Instr) (rest : List Byte), decode defaultCfg bytes = .ok (i, rest) →
    i.wf = true ∧ ∃ sent, encode defaultCfg i = some sent ∧ bytes = sent ++ rest

/-- R62, R80, R90: a well-formed operation whose exchanges are all answered sends exactly the bytes of its
encoding, in order, and ends with the block ready for the next and one outcome delivered, which is no error.
(The encoding follows D6, D7, D10, D11, D20 and D21; that one step makes all the exchanges is log 9.) -/
def Obligations.OperationsSendTheirEncoding : Prop :=
  ∀ (i : Instr) (s : State) (bytes rs : List Byte) (rest : List Input),
    s.Ready → i.wf = true → encode s.cfg i = some bytes → rs.length = bytes.length →
    s.inputs = answers rs rest →
    ∃ t r, exec i s = .next t ∧ t.trace = s.trace ++ events bytes rs ∧ t.inputs = rest ∧ t.Ready ∧
      t.replies = s.replies ++ [r] ∧ ∀ e, r ≠ .error e

/-! ## The packing functions -/

/-- R52: `ByteCount(W)` is the ceiling of `W / 8`, with the values the rule lists. -/
def Obligations.ByteCountIsTheCeiling : Prop :=
  ∀ w : Nat, 1 ≤ w → w ≤ 22 →
    ((byteCount w : Int) = ⌈(w : ℚ) / 8⌉) ∧ byteCount w = (w + 7) / 8 ∧
    (w ≤ 8 → byteCount w = 1) ∧ (9 ≤ w → w ≤ 16 → byteCount w = 2) ∧
    (17 ≤ w → byteCount w = 3)

/-- R53 (D7 for the last clause): `TxBytes(v, N)` has `N` bytes, byte `i` is `(v >> (8*i)) & 0xFF`, listed from
`N - 1` down to 0; bits at `8N` and above have no part in it, and no other mask is applied. -/
def Obligations.TxBytesListsLowBytesHighFirst : Prop :=
  ∀ (v : Word) (n : Nat), 1 ≤ n → n ≤ 3 →
    (txBytes v n).length = n ∧
    (∀ i, i < n → ∃ b : Byte, (txBytes v n)[n - 1 - i]? = some b ∧
      b.setWidth 32 = (v >>> (8 * i)) &&& 0xFF) ∧
    (∀ v' : Word, v'.toNat % 2 ^ (8 * n) = v.toNat % 2 ^ (8 * n) ↔ txBytes v' n = txBytes v n)

/-- R54: `RxAssemble` puts the first byte received highest; for each length it is the OR of the shifted
bytes, and bits `8N` and above are 0. -/
def Obligations.RxAssembleIsBigEndian : Prop :=
  (∀ a : Byte, rxAssemble [a] = a.setWidth 32) ∧
  (∀ a b : Byte, rxAssemble [a, b] = (a.setWidth 32 <<< 8) ||| b.setWidth 32) ∧
  (∀ a b c : Byte,
    rxAssemble [a, b, c] = (a.setWidth 32 <<< 16) ||| (b.setWidth 32 <<< 8) ||| c.setWidth 32) ∧
  (∀ rs : List Byte, rs.length ≤ 3 →
    (rxAssemble rs).toNat = bigEndian rs ∧ bigEndian rs < 2 ^ (8 * rs.length))

/-- R61: in a well-formed configuration `WidthOf` gives each identifier of the registry its own width, and
nothing to any other identifier; `SignedOf` likewise. -/
def Obligations.WidthComesFromTheRegistry : Prop :=
  ∀ (c : Cfg) (id : Byte), c.wf = true →
    (∀ e ∈ c.registry, e.id = id → c.widthOf id = some e.width ∧ c.signedOf id = some e.signed) ∧
    ((∀ e ∈ c.registry, e.id ≠ id) → c.widthOf id = none ∧ c.signedOf id = none)

/-- R86, R87, R88 (D11: the action is unsigned): for a legal direction the opcode byte is the base with the
direction at bit 0 and the action flag, 1 for every non-zero action, at bit 3, and nothing else OR'd in. -/
def Obligations.OpcodeByteHasActAndDir : Prop :=
  ∀ (base action dir : Byte), dir.extractLsb' 1 7 = 0 →
    ∀ k, k < 8 →
      (opcode base (actBit action) (dirBit dir)).getLsbD k =
        (base.getLsbD k || (k == 3 && decide (action ≠ 0)) || (k == 0 && dir.getLsbD 0))

/-- R55, R131: `Mask(v, W)` clears bits `W` and above and keeps bits below `W`; `ClampU` compares as unsigned,
`ClampS` as signed, each gives the maximum exactly when the operand is above it; the maxima are the rule's
table; for operands that are not negative the two agree. (Which clamp a command takes is the spec's D10.) -/
def Obligations.MaskAndClamps : Prop :=
  (∀ (v : Word) (w k : Nat), 1 ≤ w → w ≤ 22 →
    (mask v w).getLsbD k = (decide (k < w) && v.getLsbD k)) ∧
  (∀ v m : Word, clampU v m = if v.toNat > m.toNat then m else v) ∧
  (∀ v m : Word, clampS v m = if v.toInt > m.toInt then m else v) ∧
  (∀ v m : Word, 0 ≤ v.toInt → 0 ≤ m.toInt → clampU v m = clampS v m) ∧
  maxRunSpeed = 0xFFFFF ∧ maxMoveSteps = 0x3FFFFF ∧ maxGotoPos = 0x3FFFFF ∧
  maxGoUntilSpeed = 0x3FFFFF

/-- R113: `decode(encode(v)) = Mask(v, W)` for every word, so `v` itself when it is below `2^W`; and for the
22-bit signed registers the sign extension of it is `v` for every `v` from `-2^21` to `2^21 - 1`. -/
def Obligations.ParameterRoundTrip : Prop :=
  (∀ (v : Word) (w : Nat), 1 ≤ w → w ≤ 22 →
    mask (rxAssemble (txBytes v (byteCount w))) w = mask v w ∧
    (v.toNat < 2 ^ w → mask (rxAssemble (txBytes v (byteCount w))) w = v)) ∧
  (∀ v : Word, -2 ^ 21 ≤ v.toInt → v.toInt < 2 ^ 21 →
    signExt22 (mask (rxAssemble (txBytes v (byteCount 22))) 22) = v)

/-- R114: for a word below `2^22`, `SignExt22` reads bit 21 as the sign: the result is `u(v)` below `2^21` and
`u(v) - 2^22` from there, between -2097152 and 2097151, and equals the sign extension of bits 21:0. -/
def Obligations.SignExtensionFromBit21 : Prop :=
  ∀ v : Word, v.toNat < 2 ^ 22 →
    (signExt22 v).toInt = (if v.toNat < 2 ^ 21 then (v.toNat : Int) else v.toNat - 2 ^ 22) ∧
    -2097152 ≤ (signExt22 v).toInt ∧ (signExt22 v).toInt ≤ 2097151 ∧
    signExt22 v = (v.extractLsb' 0 22).signExtend 32 ∧
    (v.getLsbD 21 = true → signExt22 v = v ||| 0xFFC00000) ∧
    (v.getLsbD 21 = false → signExt22 v = v)

/-! ## ParamCodec -/

/-- R111 (D7, D9, D13): setParam sends the set opcode byte and the value's `ByteCount(W)` low bytes, unmasked
and unclamped, and ends `Ok` with no value; an identifier not in the registry ends it with `InvalidRegister`
before any exchange. (That the unknown identifier leaves the working registers as they are is log 33 too.) The
whole next state is given: that `RXN`, `ACC`, `WREG` and `SGN` hold what the operation left once it has ended is
the model's choice, since R21 says that none survives and U18 allows any value (DESIGN CHOICE, log 33; DEDUCED,
log 22, 25); its fields for the format and for the outcome outstanding are log 20 and 32; that one step makes
all the exchanges is log 9. -/
def Obligations.SetParamWritesTheParameter : Prop :=
  ∀ (s : State) (id : Byte) (value : Word), s.Ready →
    (∀ w, s.cfg.widthOf id = some w →
      Performs (.setParam id value) s
        (s.paramWrite ((s.cfg.setParamBase ||| id) :: lowBytes ((w + 7) / 8) value) w)
        (fun _ => .ok)) ∧
    (s.cfg.widthOf id = none →
      exec (.setParam id value) s =
        .next { s with
          replies := s.replies ++ [.error (.invalidRegister id)], undelivered := false })

/-- R112 (D6 to D9): getParam sends the get opcode byte and `ByteCount(W)` dummy bytes; the result is the
response, first byte highest, modulo `2^W`, unsigned for every identifier; an identifier not in the registry
ends it with `InvalidRegister` before any exchange. (That the unknown identifier leaves the working registers as
they are is log 33 too.) The whole next state is given: that `RXN`, `ACC`, `WREG` and `SGN` hold what the
operation left once it has ended is the model's choice, since R21 says that none survives and U18 allows any
value (DESIGN CHOICE, log 33; DEDUCED, log 25); its fields for the format and for the outcome outstanding are
log 20 and 32; that one step makes all the exchanges is log 9. -/
def Obligations.GetParamReadsTheParameter : Prop :=
  ∀ (s : State) (id : Byte), s.Ready →
    (∀ w, s.cfg.widthOf id = some w →
      Performs (.getParam id) s
        (s.paramRead ((s.cfg.getParamBase ||| id) :: List.replicate ((w + 7) / 8) s.cfg.dummy) w false)
        (fun rs => .value (BitVec.ofNat 32 (bigEndian (rs.drop 1) % 2 ^ w)))) ∧
    (s.cfg.widthOf id = none →
      exec (.getParam id) s =
        .next { s with
          replies := s.replies ++ [.error (.invalidRegister id)], undelivered := false })

/-! ## Motion commands -/

/-- R132: runRaw sends `RUN_BASE | dir` and the low 3 bytes of the speed, 0xFFFFF where the speed is above that;
a direction with a bit other than bit 0 set is refused. That runRaw carries a direction is D20, the unsigned
comparison D10, the refusal D12 (log 23), that no value is returned D13. The whole next state is given: that
`RXN`, `ACC`, `WREG` and `SGN` hold what the operation left once it has ended is the model's choice, since R21
says that none survives and U18 allows any value (DESIGN CHOICE, log 33; DEDUCED, log 25); its fields for the
format and for the outcome outstanding are log 20 and 32; that one step makes all the exchanges is log 9. -/
def Obligations.RunRawSendsTheClampedSpeed : Prop :=
  ∀ (s : State) (dir : Byte) (speed : Word), s.Ready →
    (dir.extractLsb' 1 7 = 0 →
      Performs (.runRaw dir speed) s
        (s.plain .p3 ((s.cfg.runBase ||| dir) ::
          lowBytes 3 (if speed.toNat > 0xFFFFF then 0xFFFFF else speed)))
        (fun _ => .ok)) ∧
    (dir.extractLsb' 1 7 ≠ 0 → exec (.runRaw dir speed) s = .refused (.directionBits dir))

/-- R133: run is runRaw of the converted speed: the clamp follows the conversion, whatever that gives. That run
carries a direction is D20, the refusal D12 (log 23), that the clamp follows the conversion D21 (log 6), the
unsigned comparison D10, that no value is returned D13. The whole next state is given: that `RXN`, `ACC`, `WREG`
and `SGN` hold what the operation left once it has ended is the model's choice, since R21 says that none
survives and U18 allows any value (DESIGN CHOICE, log 33; DEDUCED, log 25); its fields for the format and for
the outcome outstanding are log 20 and 32; that one step makes all the exchanges is log 9. -/
def Obligations.RunSendsTheClampedConversion : Prop :=
  ∀ (s : State) (dir : Byte) (f : FValue) (speed : Word), s.Ready → Config.speedConv f = speed →
    (dir.extractLsb' 1 7 = 0 →
      Performs (.run dir f) s
        (s.plain .p3 ((s.cfg.runBase ||| dir) ::
          lowBytes 3 (if speed.toNat > 0xFFFFF then 0xFFFFF else speed)))
        (fun _ => .ok)) ∧
    (dir.extractLsb' 1 7 ≠ 0 → exec (.run dir f) s = .refused (.directionBits dir))

/-- R134: move sends `MOVE_BASE | dir` and the low 3 bytes of the step count, 0x3FFFFF where it is above that; a
direction with a bit other than bit 0 set is refused. That move carries a direction is D20, the unsigned
comparison D10, the refusal D12 (log 23), that no value is returned D13. The whole next state is given: that
`RXN`, `ACC`, `WREG` and `SGN` hold what the operation left once it has ended is the model's choice, since R21
says that none survives and U18 allows any value (DESIGN CHOICE, log 33; DEDUCED, log 25); its fields for the
format and for the outcome outstanding are log 20 and 32; that one step makes all the exchanges is log 9. -/
def Obligations.MoveSendsTheClampedStepCount : Prop :=
  ∀ (s : State) (dir : Byte) (steps : Word), s.Ready →
    (dir.extractLsb' 1 7 = 0 →
      Performs (.move dir steps) s
        (s.plain .p3 ((s.cfg.moveBase ||| dir) ::
          lowBytes 3 (if steps.toNat > 0x3FFFFF then 0x3FFFFF else steps)))
        (fun _ => .ok)) ∧
    (dir.extractLsb' 1 7 ≠ 0 → exec (.move dir steps) s = .refused (.directionBits dir))

/-- R135 (the signed comparison is D10): goTo sends `GOTO_BASE` and the low 3 bytes of the position, 0x3FFFFF
where the signed position is above that; a negative position passes unchanged. That goTo carries no direction is
D20, that no value is returned D13. The whole next state is given: that `RXN`, `ACC`, `WREG` and `SGN` hold what
the operation left once it has ended is the model's choice, since R21 says that none survives and U18 allows any
value (DESIGN CHOICE, log 33; DEDUCED, log 25); its fields for the format and for the outcome outstanding are
log 20 and 32; that one step makes all the exchanges is log 9. -/
def Obligations.GoToSendsTheSignedClampedPosition : Prop :=
  ∀ (s : State) (pos : Word), s.Ready →
    Performs (.goTo pos) s
      (s.plain .p3 (s.cfg.gotoBase :: lowBytes 3 (if pos.toInt > 0x3FFFFF then 0x3FFFFF else pos)))
      (fun _ => .ok)

/-- R136 (the signed comparison is D10): goToDir is goTo with `GOTO_DIR_BASE | dir`; a direction with a bit
other than bit 0 set is refused. That goToDir carries a direction is D20, the refusal D12 (log 23), that no
value is returned D13. The whole next state is given: that `RXN`, `ACC`, `WREG` and `SGN` hold what the
operation left once it has ended is the model's choice, since R21 says that none survives and U18 allows any
value (DESIGN CHOICE, log 33; DEDUCED, log 25); its fields for the format and for the outcome outstanding are
log 20 and 32; that one step makes all the exchanges is log 9. -/
def Obligations.GoToDirSendsTheSignedClampedPosition : Prop :=
  ∀ (s : State) (dir : Byte) (pos : Word), s.Ready →
    (dir.extractLsb' 1 7 = 0 →
      Performs (.goToDir dir pos) s
        (s.plain .p3 ((s.cfg.gotoDirBase ||| dir) ::
          lowBytes 3 (if pos.toInt > 0x3FFFFF then 0x3FFFFF else pos)))
        (fun _ => .ok)) ∧
    (dir.extractLsb' 1 7 ≠ 0 → exec (.goToDir dir pos) s = .refused (.directionBits dir))

/-- R137: goUntilRaw sends `GO_UNTIL_BASE | ((action > 0) << 3) | dir` and the low 3 bytes of the speed,
0x3FFFFF where it is above that; a direction with a bit other than bit 0 set is refused. That every non-zero
action is 1 is D11, the refusal D12 (log 23), the unsigned comparison D10, the operand list D20, that no value
is returned D13. The whole next state is given: that `RXN`, `ACC`, `WREG` and `SGN` hold what the operation left
once it has ended is the model's choice, since R21 says that none survives and U18 allows any value (DESIGN
CHOICE, log 33; DEDUCED, log 25); its fields for the format and for the outcome outstanding are log 20 and 32;
that one step makes all the exchanges is log 9. -/
def Obligations.GoUntilRawSendsTheClampedSpeed : Prop :=
  ∀ (s : State) (action dir : Byte) (speed : Word), s.Ready →
    (dir.extractLsb' 1 7 = 0 →
      Performs (.goUntilRaw action dir speed) s
        (s.plain .p3
          ((s.cfg.goUntilBase ||| (if action.toNat > 0 then 0x08 else 0x00) ||| dir) ::
            lowBytes 3 (if speed.toNat > 0x3FFFFF then 0x3FFFFF else speed)))
        (fun _ => .ok)) ∧
    (dir.extractLsb' 1 7 ≠ 0 →
      exec (.goUntilRaw action dir speed) s = .refused (.directionBits dir))

/-- R138: goUntil is goUntilRaw of the converted speed: the clamp follows the conversion. The unsigned action is
D11, the refusal D12 (log 23), that the clamp follows the conversion D21 (log 6), the unsigned comparison D10,
the operand list D20, that no value is returned D13. The whole next state is given: that `RXN`, `ACC`, `WREG`
and `SGN` hold what the operation left once it has ended is the model's choice, since R21 says that none
survives and U18 allows any value (DESIGN CHOICE, log 33; DEDUCED, log 25); its fields for the format and for
the outcome outstanding are log 20 and 32; that one step makes all the exchanges is log 9. -/
def Obligations.GoUntilSendsTheClampedConversion : Prop :=
  ∀ (s : State) (action dir : Byte) (f : FValue) (speed : Word), s.Ready →
    Config.speedConv f = speed →
    (dir.extractLsb' 1 7 = 0 →
      Performs (.goUntil action dir f) s
        (s.plain .p3
          ((s.cfg.goUntilBase ||| (if action.toNat > 0 then 0x08 else 0x00) ||| dir) ::
            lowBytes 3 (if speed.toNat > 0x3FFFFF then 0x3FFFFF else speed)))
        (fun _ => .ok)) ∧
    (dir.extractLsb' 1 7 ≠ 0 →
      exec (.goUntil action dir f) s = .refused (.directionBits dir))

/-- R140 (c), R229 (the spec's own inference from R130 to R138): no byte of a value above the command's maximum
is sent: the payload of a motion command is at most its maximum, except for goTo and goToDir with a negative
position. (The clamps are D10, the conversion before the clamp D21.) -/
def Obligations.MotionPayloadNeverExceedsTheMaximum : Prop :=
  ∀ (c : Cfg) (i : Instr) (opc : Byte) (payload : List Byte),
    i.format = .p3 → encode c i = some (opc :: payload) →
    payload.length = 3 ∧
    match i with
    | .runRaw _ _ => bigEndian payload ≤ 0xFFFFF
    | .run _ _ => bigEndian payload ≤ 0xFFFFF
    | .goTo pos => 0 ≤ pos.toInt → bigEndian payload ≤ 0x3FFFFF
    | .goToDir _ pos => 0 ≤ pos.toInt → bigEndian payload ≤ 0x3FFFFF
    | _ => bigEndian payload ≤ 0x3FFFFF

/-! ## Zero-payload commands -/

/-- R150 to R158: each of the eight commands without operands makes exactly one exchange, of its own opcode
constant, and ends `Ok`. That the received byte is discarded and no value is returned is D13. The whole next
state is given: that `RXN`, `ACC`, `WREG` and `SGN` hold what the operation left once it has ended is the
model's choice, since R21 says that none survives and U18 allows any value (DESIGN CHOICE, log 33; DEDUCED, log
25); its fields for the format and for the outcome outstanding are log 20 and 32; that one step makes all the
exchanges is log 9. -/
def Obligations.ZeroPayloadCommandsSendOneByte : Prop :=
  ∀ s : State, s.Ready →
    Performs .goHome s (s.plain .z [s.cfg.goHomeOp]) (fun _ => .ok) ∧
    Performs .goMark s (s.plain .z [s.cfg.goMarkOp]) (fun _ => .ok) ∧
    Performs .resetPos s (s.plain .z [s.cfg.resetPosOp]) (fun _ => .ok) ∧
    Performs .resetDev s (s.plain .z [s.cfg.resetDevOp]) (fun _ => .ok) ∧
    Performs .softStop s (s.plain .z [s.cfg.softStopOp]) (fun _ => .ok) ∧
    Performs .hardStop s (s.plain .z [s.cfg.hardStopOp]) (fun _ => .ok) ∧
    Performs .softHiZ s (s.plain .z [s.cfg.softHiZOp]) (fun _ => .ok) ∧
    Performs .hardHiZ s (s.plain .z [s.cfg.hardHiZOp]) (fun _ => .ok)

/-- R159: stepClock makes one exchange, of `STEP_CLOCK_BASE | dir`; a direction with a bit other than bit 0 set
is refused. The refusal of other direction bits is D12 (log 23), the operand list D20, that no value is returned
D13. The whole next state is given: that `RXN`, `ACC`, `WREG` and `SGN` hold what the operation left once it has
ended is the model's choice, since R21 says that none survives and U18 allows any value (DESIGN CHOICE, log 33;
DEDUCED, log 25); its fields for the format and for the outcome outstanding are log 20 and 32; that one step
makes all the exchanges is log 9. -/
def Obligations.StepClockSendsOneByteWithTheDirection : Prop :=
  ∀ (s : State) (dir : Byte), s.Ready →
    (dir.extractLsb' 1 7 = 0 →
      Performs (.stepClock dir) s (s.plain .z [s.cfg.stepClockBase ||| dir]) (fun _ => .ok)) ∧
    (dir.extractLsb' 1 7 ≠ 0 → exec (.stepClock dir) s = .refused (.directionBits dir))

/-! ## The status read -/

/-- R170, R171 (D6, D14, D15): getStatus makes three exchanges, the result is the two response bytes, first byte
highest; `IE` after it is as it was before. (The premise on `irqWaiting` is part of the invariant `State.Inv`.)
How interrupts wait is log 10. The whole next state is given: that `RXN`, `ACC`, `WREG` and `SGN` hold what the
operation left once it has ended is the model's choice, since R21 says that none survives and U18 allows any
value (DESIGN CHOICE, log 33; DEDUCED, log 25); its fields for the format and for the outcome outstanding are
log 20 and 32; that one step makes all the exchanges is log 9. -/
def Obligations.GetStatusReadsTwoBytes : Prop :=
  ∀ s : State, s.Ready → (s.ie = true → s.irqWaiting = 0) →
    Performs .getStatus s s.statusRead
      (fun rs => .value (BitVec.ofNat 32 (bigEndian (rs.drop 1))))

/-- R170, R171, R23, R197 (D6, D14; how interrupts wait and are counted is log 10). First, with
`CRITICAL_STATUS` true, whatever interrupts arrive, no handler runs between the exchanges: a status read that is
not over has `IE` at 0, no interrupt taken, and has not been preempted but waits for an exchange that never
returns (log 8). One that is over, `Ok` or not, has put `IE` back; where that is 1 every interrupt that waited
has been taken, where it is 0 none has. And none is lost: those taken, those that wait and those still to come
add up to what they were before. Second, a status read made with `IE` at 0, whose three exchanges are answered
with interrupts arriving before any of them, sends its three bytes and returns the two status bytes, first byte
highest, as it does without them; `IE` is as it was, and where that is 1 all the interrupts that waited have
been taken. Third, the same for every operation, whatever the script: while `IE` is 0 (it was 0, or the
operation is a critical status read) the interrupts in the script change nothing but the two counters: without
them the operation answers the same, in the same state and with the same part of the script left, or is refused
the same. -/
def Obligations.StatusReadIsNeverPreempted : Prop :=
  (∀ s t : State, s.Ready → s.cfg.criticalStatus = true → s.NoReset → exec .getStatus s = .next t →
    (t.phase = .busy → t.ie = false ∧ t.ies = some s.ie ∧ t.irqTaken = s.irqTaken ∧
      (t.Hung ∨ (t.inputs = [] ∧ Config.freeAnswer t.draws = .hang))) ∧
    (t.phase = .idle → t.ie = s.ie ∧ t.ies = none ∧ (s.ie = true → t.irqWaiting = 0) ∧
      (s.ie = false → t.irqTaken = s.irqTaken)) ∧
    t.irqTaken + t.irqWaiting + t.inputs.count .interrupt =
      s.irqTaken + s.irqWaiting + s.inputs.count .interrupt) ∧
  (∀ (s : State) (r hi lo : Byte) (n₀ n₁ n₂ : Nat) (rest : List Input), s.Ready → s.Masked .getStatus →
    s.inputs = interrupts n₀ (.answer (.byte r) ::
      interrupts n₁ (.answer (.byte hi) :: interrupts n₂ (.answer (.byte lo) :: rest))) →
    ∃ t, exec .getStatus s = .next t ∧ t.phase = .idle ∧
      t.trace = s.trace ++ events [s.cfg.getStatusOp, s.cfg.dummy, s.cfg.dummy] [r, hi, lo] ∧
      t.replies = s.replies ++ [.value ((hi.setWidth 32 <<< 8) ||| lo.setWidth 32)] ∧
      t.inputs = rest ∧ t.ie = s.ie ∧ t.ies = none ∧
      t.irqTaken = (if s.ie then s.irqTaken + s.irqWaiting + n₀ + n₁ + n₂ else s.irqTaken) ∧
      t.irqWaiting = (if s.ie then 0 else s.irqWaiting + n₀ + n₁ + n₂)) ∧
  ∀ (i : Instr) (s : State), s.Ready → s.Masked i →
    (∀ t', exec i { s with inputs := quiet s.inputs } = .next t' →
      ∃ t, exec i s = .next t ∧
        t' = { t with
          inputs := quiet t.inputs, irqTaken := t'.irqTaken, irqWaiting := t'.irqWaiting }) ∧
    ∀ r, exec i { s with inputs := quiet s.inputs } = .refused r → exec i s = .refused r

/-- R231 (the spec's own inference from R171 and R201; D27): a status read with `CRITICAL_STATUS` true whose
exchange never returns leaves `IE` 0 and the block busy, and no interrupt taken, after any number of further
steps. That the step of a hung block answers a next state, the same one, is log 8; that nothing scripted behind
the hang reaches it is log 31. -/
def Obligations.HangInStatusReadLeavesInterruptsOff : Prop :=
  ∀ (s : State) (rs : List Byte) (rest : List Input), s.Ready → s.cfg.criticalStatus = true →
    rs.length < 3 → s.inputs = answers rs (.answer .hang :: rest) →
    ∃ t, exec .getStatus s = .next t ∧
      ∀ k, ∃ u, core.run k t = .next u ∧ u.ie = false ∧ u.phase = .busy ∧ u.irqTaken = s.irqTaken

/-- R172, R224: getStatus and getParam(STATUS), both answered, return the same two status bytes over different
bytes on the bus wherever the two opcode bytes differ and STATUS is 16 bits wide; getParam leaves `IE` and `IES`
as they were. (The dummy bytes are D6, the mask after assembly is D7.) -/
def Obligations.TwoStatusReadsAreDifferentStreams : Prop :=
  ∀ (s : State) (r hi lo : Byte) (rest : List Input), s.Ready →
    s.cfg.widthOf s.cfg.status = some 16 →
    s.cfg.getStatusOp ≠ s.cfg.getParamBase ||| s.cfg.status →
    s.inputs = answers [r, hi, lo] rest →
    ∃ t u, exec .getStatus s = .next t ∧ exec (.getParam s.cfg.status) s = .next u ∧
      t.trace.map (·.out) = s.trace.map (·.out) ++ [s.cfg.getStatusOp, s.cfg.dummy, s.cfg.dummy] ∧
      u.trace.map (·.out) = s.trace.map (·.out) ++
        [s.cfg.getParamBase ||| s.cfg.status, s.cfg.dummy, s.cfg.dummy] ∧
      t.trace ≠ u.trace ∧ t.replies = u.replies ∧
      t.replies = s.replies ++ [.value ((hi.setWidth 32 <<< 8) ||| lo.setWidth 32)] ∧
      u.ie = s.ie ∧ u.ies = none

/-! ## Position and mark accessors -/

/-- R180, R181: getPos and getMark read `ABS_POS` and `MARK` with three dummy bytes; the result is the low 22
bits of the response read as a two's-complement number. The dummy bytes are D6, the mask after assembly is D7,
that these two alone sign-extend is D8, that the two are in the registry is D4. The whole next state is given:
that `RXN`, `ACC`, `WREG` and `SGN` hold what the operation left once it has ended is the model's choice, since
R21 says that none survives and U18 allows any value (DESIGN CHOICE, log 33; DEDUCED, log 25); its fields for
the format and for the outcome outstanding are log 20 and 32; that one step makes all the exchanges is log 9. -/
def Obligations.GetPosAndGetMarkReadSigned : Prop :=
  ∀ s : State, s.Ready →
    Performs .getPos s
      (s.paramRead [s.cfg.getParamBase ||| s.cfg.absPos, s.cfg.dummy, s.cfg.dummy, s.cfg.dummy]
        22 true)
      (fun rs => .value (BitVec.ofInt 32 (signed22 (bigEndian (rs.drop 1) % 2 ^ 22)))) ∧
    Performs .getMark s
      (s.paramRead [s.cfg.getParamBase ||| s.cfg.mark, s.cfg.dummy, s.cfg.dummy, s.cfg.dummy]
        22 true)
      (fun rs => .value (BitVec.ofInt 32 (signed22 (bigEndian (rs.drop 1) % 2 ^ 22))))

/-- R182, R183: setPos and setMark send the low 3 bytes of the value as given to `ABS_POS` and `MARK`. The
unmasked bytes are D7, the missing value is D13, that the two are in the registry is D4. The whole next state is
given: that `RXN`, `ACC`, `WREG` and `SGN` hold what the operation left once it has ended is the model's choice,
since R21 says that none survives and U18 allows any value (DESIGN CHOICE, log 33; DEDUCED, log 22, 25); its
fields for the format and for the outcome outstanding are log 20 and 32; that one step makes all the exchanges
is log 9. -/
def Obligations.SetPosAndSetMarkSendThreeBytes : Prop :=
  ∀ (s : State) (value : Word), s.Ready →
    Performs (.setPos value) s
      (s.paramWrite ((s.cfg.setParamBase ||| s.cfg.absPos) :: lowBytes 3 value) 22) (fun _ => .ok) ∧
    Performs (.setMark value) s
      (s.paramWrite ((s.cfg.setParamBase ||| s.cfg.mark) :: lowBytes 3 value) 22) (fun _ => .ok)

/-- R184: setElPos sends `ByteCount(W(EL_POS))` bytes; the width is in the registry of every well-formed
configuration (R6 (d), D4); the unmasked bytes are D7, the missing value is D13, that its width comes from the
registry D25. The whole next state is given: that `RXN`, `ACC`, `WREG` and `SGN` hold what the operation left
once it has ended is the model's choice, since R21 says that none survives and U18 allows any value (DESIGN
CHOICE, log 33; DEDUCED, log 22, 25); its fields for the format and for the outcome outstanding are log 20 and
32; that one step makes all the exchanges is log 9. -/
def Obligations.SetElPosSendsTheRegistryWidth : Prop :=
  ∀ (s : State) (value : Word), s.Ready →
    ∃ w, s.cfg.widthOf s.cfg.elPos = some w ∧
      Performs (.setElPos value) s
        (s.paramWrite ((s.cfg.setParamBase ||| s.cfg.elPos) :: lowBytes ((w + 7) / 8) value) w)
        (fun _ => .ok)

/-- R185, R182, R153: resetPos makes one exchange, of its own opcode; setPos, whatever the value, makes four, of
the set opcode byte of `ABS_POS` and the value's low 3 bytes (R182; that they are unmasked is D7, that `ABS_POS`
is in the registry, with 22 bits, is R6 with D4; log 18); so the two stay distinguishable on the bus. -/
def Obligations.ResetPosIsNotSetPos : Prop :=
  ∀ (s : State) (v : Word) (r0 r1 r2 r3 : Byte) (rest : List Input), s.Ready →
    s.inputs = answers [r0, r1, r2, r3] rest →
    ∃ t u, exec .resetPos s = .next t ∧ exec (.setPos v) s = .next u ∧
      t.trace.map (·.out) = s.trace.map (·.out) ++ [s.cfg.resetPosOp] ∧
      u.trace.map (·.out) =
        s.trace.map (·.out) ++ (s.cfg.setParamBase ||| s.cfg.absPos) :: lowBytes 3 v ∧
      t.trace ≠ u.trace

/-- R186: for every word from `-2^21` to `2^21 - 1` there are the payload bytes `x, y, z` that setPos sends for
it, and setMark too; and when getPos is answered with that payload, or with its low 22 bits only, it returns
that word; the same for getMark. (The unmasked bytes on the way out and the mask on the way in are D7, that only
these reads sign-extend is D8.) -/
def Obligations.PositionSignRoundTrip : Prop :=
  ∀ (s : State) (v : Word) (a b c d : Byte) (rest : List Input),
    -2 ^ 21 ≤ v.toInt → v.toInt < 2 ^ 21 → s.Ready → s.inputs = answers [a, b, c, d] rest →
    ∃ x y z : Byte,
      (∃ t, exec (.setPos v) s = .next t ∧ t.trace.map (·.out) =
        s.trace.map (·.out) ++ [s.cfg.setParamBase ||| s.cfg.absPos, x, y, z]) ∧
      (∃ t, exec (.setMark v) s = .next t ∧ t.trace.map (·.out) =
        s.trace.map (·.out) ++ [s.cfg.setParamBase ||| s.cfg.mark, x, y, z]) ∧
      ∀ (u : State) (r x' : Byte) (rest' : List Input), u.Ready → x' = x ∨ x' = x &&& 0x3F →
        u.inputs = answers [r, x', y, z] rest' →
        (∃ w, exec .getPos u = .next w ∧ w.replies = u.replies ++ [.value v]) ∧
        (∃ w, exec .getMark u = .next w ∧ w.replies = u.replies ++ [.value v])

/-! ## Errors, hangs, refusals -/

/-- R191, R61 (that no byte is exchanged is D9): `InvalidRegister` ends a setParam or getParam of an identifier
that is in no entry of the registry, records the identifier, and exchanges no byte; the accessors never end with
it. -/
def Obligations.InvalidRegisterBeforeAnyExchange : Prop :=
  ∀ (s : State) (id : Byte) (value : Word), s.Ready →
    ((∀ e ∈ s.cfg.registry, e.id ≠ id) →
      (∃ t, exec (.setParam id value) s = .next t ∧ t.trace = s.trace ∧ t.inputs = s.inputs ∧
        t.replies = s.replies ++ [.error (.invalidRegister id)]) ∧
      (∃ t, exec (.getParam id) s = .next t ∧ t.trace = s.trace ∧ t.inputs = s.inputs ∧
        t.replies = s.replies ++ [.error (.invalidRegister id)])) ∧
    (∀ i ∈ [Instr.getPos, .getMark, .setPos value, .setMark value, .setElPos value], ∀ t j,
      exec i s = .next t → t.replies ≠ s.replies ++ [.error (.invalidRegister j)])

/-- R193, R195, R196 (D17): an exchange that fails, at any place of the transaction of any operation begun in a
ready state, ends it there: the exchanges before it stand in the trace, then the attempt with no received byte;
no further byte is sent; `TransportFailure` and no value is delivered; `IE` is as it was; the block is ready.
(The premise on `irqWaiting` is part of `State.Inv`.) (The same in an operation that was preempted and goes on
is BusyStepMakesTheNextExchange.) -/
def Obligations.TransportFailureEndsTheOperation : Prop :=
  ∀ (i : Instr) (s : State) (bytes rs : List Byte) (b : Byte) (rest : List Input),
    s.Ready → (s.ie = true → s.irqWaiting = 0) → i.wf = true → encode s.cfg i = some bytes →
    bytes[rs.length]? = some b → s.inputs = answers rs (.answer .fail :: rest) →
    ∃ t, exec i s = .next t ∧ t.trace = s.trace ++ events bytes rs ++ [⟨b, none⟩] ∧
      t.replies = s.replies ++ [.error .transportFailure] ∧ t.ie = s.ie ∧ t.Ready ∧ t.inputs = rest ∧
      t.irqTaken = s.irqTaken

/-- R199 (D17): raising an error drops the bytes not yet sent, writes the saved `IE` back if there is one and
empties `IES`, makes the block idle and delivers the error; the trace and the configuration are kept. -/
def Obligations.RaisingAnErrorEndsTheOperation : Prop :=
  ∀ (s : State) (e : BlockError),
    (s.raise e).txq = [] ∧ (s.raise e).ies = none ∧ (s.raise e).phase = .idle ∧
    (s.raise e).replies = s.replies ++ [.error e] ∧ (s.raise e).trace = s.trace ∧
    (s.raise e).cfg = s.cfg ∧
    (∀ b, s.ies = some b → (s.raise e).ie = b) ∧ (s.ies = none → (s.raise e).ie = s.ie)

/-- R201 (D27; that the step of a hung block answers the same state is log 8, that nothing scripted behind the
hang reaches it is log 31): an exchange that never returns, at any place of the transaction of any operation
begun in a ready state, leaves the block busy there, the exchanges before it in the trace and no outcome
delivered; and a hung block stays exactly as it is after any number of steps. (The same in an operation that was
preempted and goes on is BusyStepMakesTheNextExchange.) -/
def Obligations.HungBlockNeverMovesOn : Prop :=
  (∀ (i : Instr) (s : State) (bytes rs : List Byte) (rest : List Input),
    s.Ready → i.wf = true → encode s.cfg i = some bytes → rs.length < bytes.length →
    s.inputs = answers rs (.answer .hang :: rest) →
    ∃ t, exec i s = .next t ∧ t.Hung ∧ t.txq = bytes.drop rs.length ∧
      t.trace = s.trace ++ events bytes rs ∧ t.replies = s.replies) ∧
  ∀ (s : State) (k : Nat), s.Hung → core.run k s = .next s ∧ ¬ s.Final

/-- R205 (D19): an operation presented while the block is busy is refused. -/
def Obligations.RequestWhileBusyIsRefused : Prop :=
  ∀ (i : Instr) (s : State), s.phase = .busy → exec i s = .refused .requestWhileBusy

/-- R63, R205, R222 (D19): another agent that breaks the contract before the transaction is over stops the step,
by name, whatever the operation begun in a ready state. (That a foreign write of `IE` is among them is log 19.)
(The same in an operation that was preempted and goes on is BusyStepMakesTheNextExchange.) -/
def Obligations.IntrusionInMidTransactionIsRefused : Prop :=
  ∀ (i : Instr) (s : State) (bytes rs : List Byte) (k : Intrusion) (rest : List Input),
    s.Ready → i.wf = true → encode s.cfg i = some bytes → rs.length < bytes.length →
    s.inputs = answers rs (.intrusion k :: rest) →
    exec i s = .refused (match k with
      | .request => .requestWhileBusy
      | .busTraffic => .busNotExclusive
      | .ieWrite => .foreignInterruptWrite)

/-- R6: no operation has a meaning in a configuration that is not well formed. -/
def Obligations.IllFormedConfigurationIsRefused : Prop :=
  ∀ (i : Instr) (s : State), s.phase = .idle → s.cfg.wf = false →
    exec i s = .refused .illFormedConfiguration

/-- R198: in a ready state a well-formed operation that no other agent disturbs always answers a next state,
whatever the transport answers and whatever interrupts and resets arrive. R11 says that an operation whose
exchange never returns does not end; that the model then answers a next state, the block left busy, is its own
choice (log 8). -/
def Obligations.LegalOperationsAlwaysAnswer : Prop :=
  ∀ (i : Instr) (s : State), s.Ready → i.wf = true → s.Undisturbed → ∃ t, exec i s = .next t

/-! ## Frames -/

/-- R22 (d), R62: in every case that answers a next state without a reset, the trace is extended by events whose
bytes are, in order, the first bytes of the operation's encoding; at most one outcome is delivered, exactly
when the block is idle again; and an outcome that is no error means that every byte was exchanged. -/
def Obligations.BytesGoOutInOrder : Prop :=
  ∀ (i : Instr) (s t : State) (bytes : List Byte), s.Ready → s.NoReset → encode s.cfg i = some bytes →
    exec i s = .next t →
    ∃ ev : List BusEvent, t.trace = s.trace ++ ev ∧ ev.map (·.out) <+: bytes ∧
      ((t.phase = .busy ∧ t.replies = s.replies) ∨
       (t.phase = .idle ∧ ∃ r, t.replies = s.replies ++ [r] ∧
        ((∀ e, r ≠ .error e) → ev.map (·.out) = bytes)))

/-- R23, R24, R132 to R138, R151 to R159: the motion and zero-payload commands, in every case that answers a
next state without a reset, leave `IE`, `IES`, `WREG`, `SGN`, the configuration and the host's queue as they
were. That `WREG` and `SGN` are as they were once the operation has ended is the model's choice, not the rules':
R21 says that none of the working registers survives the end and U18 allows any value then; the model keeps what
the operation left (DESIGN CHOICE, log 33), and what it leaves is what it found (DEDUCED, log 25). -/
def Obligations.CommandsLeaveFlagsAndWidthsAlone : Prop :=
  ∀ (i : Instr) (s t : State), i.format = .z ∨ i.format = .p3 → s.Ready → s.NoReset →
    exec i s = .next t →
    t.ie = s.ie ∧ t.ies = none ∧ t.wreg = s.wreg ∧ t.sgn = s.sgn ∧ t.cfg = s.cfg ∧ t.host = s.host

/-- R111, R112, R180 to R184: the parameter accesses, in every case that answers a next state without a reset,
leave `IE`, `IES`, the configuration and the host's queue as they were, and the writes `SGN` too. That `SGN` is
as it was once a write has ended is the model's choice, not the rules': R21 says that none of the working
registers survives the end and U18 allows any value then; the model keeps what the operation left (DESIGN
CHOICE, log 33), and what a write leaves there is what it found (DEDUCED, log 25). -/
def Obligations.ParameterAccessesLeaveFlagsAlone : Prop :=
  ∀ (i : Instr) (s t : State), i.format = .pw ∨ i.format = .pr → s.Ready → s.NoReset →
    exec i s = .next t →
    t.ie = s.ie ∧ t.ies = none ∧ t.cfg = s.cfg ∧ t.host = s.host ∧ (i.format = .pw → t.sgn = s.sgn)

/-- R170: the status read, in every case that answers a next state without a reset, leaves `WREG`, `SGN`, the
configuration and the host's queue as they were; where `CRITICAL_STATUS` is false, `IE` and `IES` too. That
`WREG` and `SGN` are as they were once the operation has ended is the model's choice, not the rules': R21 says
that none of the working registers survives the end and U18 allows any value then; the model keeps what the
operation left (DESIGN CHOICE, log 33), and what it leaves is what it found (DEDUCED, log 25). -/
def Obligations.StatusReadLeavesWidthsAlone : Prop :=
  ∀ (s t : State), s.Ready → s.NoReset → exec .getStatus s = .next t →
    t.wreg = s.wreg ∧ t.sgn = s.sgn ∧ t.cfg = s.cfg ∧ t.host = s.host ∧
    (s.cfg.criticalStatus = false → t.ie = s.ie ∧ t.ies = none)

/-- R197 (the two counters are the model's, log 10): while `IE` is 0 no operation lets an interrupt be taken,
whatever arrives. -/
def Obligations.NoInterruptIsTakenWhileDisabled : Prop :=
  ∀ (i : Instr) (s t : State), s.Ready → s.ie = false → s.NoReset → exec i s = .next t →
    t.irqTaken = s.irqTaken ∧ s.irqWaiting ≤ t.irqWaiting

/-- R23, R197 (how an interrupt is modelled is log 9, 10): where interrupts are enabled and the operation is no
critical status read, an interrupt that arrives between two exchanges of an operation begun in a ready state is
taken there: the step ends with the block busy, the exchanges made in the trace, the rest still to be sent,
nothing delivered. (The same in an operation that was preempted and goes on is BusyStepMakesTheNextExchange.) -/
def Obligations.InterruptIsTakenBetweenExchanges : Prop :=
  ∀ (i : Instr) (s : State) (bytes rs : List Byte) (rest : List Input),
    s.Ready → s.ie = true → (i = .getStatus → s.cfg.criticalStatus = false) → i.wf = true →
    encode s.cfg i = some bytes → rs.length < bytes.length →
    s.inputs = answers rs (.interrupt :: rest) →
    ∃ t, exec i s = .next t ∧ t.irqTaken = s.irqTaken + 1 ∧ t.phase = .busy ∧
      t.txq = bytes.drop rs.length ∧ t.trace = s.trace ++ events bytes rs ∧ t.replies = s.replies ∧
      t.ie = true ∧ t.ies = none ∧ t.inputs = rest ∧ t.host = s.host ∧ t.cfg = s.cfg

/-- R23, R197: the host's write of `IE` while the block is idle changes `IE`, and when it becomes 1 the interrupts
that waited are taken; nothing of the block changes. (The two counters are the model's, log 10.) -/
def Obligations.HostWritesInterruptEnableWhenIdle : Prop :=
  ∀ (s : State) (b : Bool) (rest : List HostAction), s.phase = .idle → s.host = .setIE b :: rest →
    step s = .next { s with
      host := rest
      ie := b
      irqTaken := if b then s.irqTaken + s.irqWaiting else s.irqTaken
      irqWaiting := if b then 0 else s.irqWaiting }

/-! ## Reset, the invariant, and the machine as a whole -/

/-- R31 (D18): what reset leaves, where the rule gives it: idle, `TXQ` and `IES` empty, no event in the trace,
and the launch premises met. -/
def Obligations.ResetIsIdleAndEmpty : Prop :=
  State.reset.phase = .idle ∧ State.reset.txq = [] ∧ State.reset.ies = none ∧
  State.reset.trace = [] ∧ State.reset.Ready

/-- R220, R31 (D18): a reset in the middle of any operation begun in a ready state cuts it short, and a reset of
an idle block, which the host makes, leaves the same: the block is idle with nothing queued or saved and the
trace empty; `IE` is what the platform's reset makes it, a free value (log 14). That no outcome is delivered,
and that the outcomes, the host's queue, the script and the configuration are kept, is log 29. A run whose last
operation was cut short is not over (R233), since its outcome stays outstanding (log 32). An idle block, after a
reset or not, with nothing presented waits as it is (R233, log 15). (The same in an operation that was preempted
and goes on is BusyStepMakesTheNextExchange.) (A reset between the last exchange and completion cannot occur in
the model, DESIGN CHOICE, log 26.) -/
def Obligations.ResetInMidOperationCutsItShort : Prop :=
  (∀ (i : Instr) (s : State) (bytes rs : List Byte) (rest : List Input),
    s.Ready → i.wf = true → encode s.cfg i = some bytes → rs.length < bytes.length →
    s.inputs = answers rs (.reset :: rest) →
    ∃ t, exec i s = .next t ∧ t.Ready ∧ t.trace = [] ∧ t.replies = s.replies ∧ t.cfg = s.cfg ∧
      t.host = s.host ∧ t.inputs = rest ∧ t.ie = Config.ieAfterReset s.draws ∧ ¬ t.Final) ∧
  (∀ (s : State) (rest : List HostAction), s.phase = .idle → s.host = .reset :: rest →
    ∃ t, step s = .next t ∧ t.phase = .idle ∧ t.txq = [] ∧ t.ies = none ∧ t.trace = [] ∧
      t.replies = s.replies ∧ t.undelivered = s.undelivered ∧ t.cfg = s.cfg ∧ t.host = rest ∧
      t.inputs = s.inputs ∧
      t.ie = Config.ieAfterReset s.draws) ∧
  ∀ s : State, s.phase = .idle → s.host = [] → step s = .next s

/-- R200, R220, R233: an operation that has ended, `Ok` or not, leaves the block ready for the next; and where
no reset cut it short and the host has no request left to present, the run is over, whatever writes of `IE` and
resets the host still has to make (that an outcome is outstanding is a field of the model, log 32). That a reset
leaves the block idle is D18. -/
def Obligations.EndedOperationLeavesTheBlockReady : Prop :=
  ∀ (i : Instr) (s t : State), s.Ready → exec i s = .next t → t.phase = .idle →
    t.Ready ∧ (s.NoReset → (∀ r, HostAction.request r ∉ t.host) → t.Final)

/-- R6 (c), R65: no step changes the configuration. -/
def Obligations.ConfigurationNeverChanges : Prop :=
  ∀ s t : State, step s = .next t → t.cfg = s.cfg

/-- R31, R33: the invariant of Safety.lean holds after reset. Its bounds on `RXN`, `ACC` and `WREG` hold there
by the values the model chose for what R31 leaves unspecified (DESIGN CHOICE, log 12), and its clause on waiting
interrupts by log 10 and 13. -/
def Obligations.InvariantHoldsAtReset : Prop := State.reset.Inv

/-- R6, R21, R22, R33, R141, R171, R197: every step keeps the invariant, from every state that has it: the
working registers stay in their ranges, `ACC` never loses a bit, an idle block holds nothing, a saved `IE` means
a critical status read with `IE` at 0. Three clauses rest on the model's own choices: that a busy block always
has a byte to send, where R22 (c) has `BUSY` with `TXQ` empty before completion, is the model's granularity
(DESIGN CHOICE, log 9, 26); that it owes an outcome is log 32; that no interrupt waits while `IE` is 1 is log
10. What the working registers hold between operations is log 12 and 33. -/
def Obligations.EveryStepKeepsTheInvariant : Prop :=
  ∀ s t : State, s.Inv → step s = .next t → t.Inv

/-- R20: an operation's bytes and outcome are a function of its operands, the configuration and what the outside
world does during it, and of nothing else: from two ready states that agree in these, whatever their
working registers, traces, outcomes, host queues and counters, the operation extends both traces by the
same events and delivers the same outcomes. (Where interrupts arrive `IE` must agree too: it decides where
the operation is preempted, R23.) -/
def Obligations.NothingIsRememberedBetweenOperations : Prop :=
  ∀ (i : Instr) (s s' t : State), s.Ready → s'.Ready → s.NoReset → s'.cfg = s.cfg →
    s'.inputs = s.inputs → s'.draws = s.draws → (s'.ie = s.ie ∨ Input.interrupt ∉ s.inputs) →
    exec i s = .next t →
    ∃ (t' : State) (ev : List BusEvent) (rp : List Reply), exec i s' = .next t' ∧
      t.trace = s.trace ++ ev ∧ t'.trace = s'.trace ++ ev ∧
      t.replies = s.replies ++ rp ∧ t'.replies = s'.replies ++ rp ∧ t'.phase = t.phase ∧
      t'.inputs = t.inputs

/-- R10, R193, R201, U5: past the end of the script the step does what the free answer it draws says, a value of
Config of which nothing is known: with a byte it makes the exchange, with a failure it ends the operation, with
silence it leaves the block as it is. How free answers are drawn is log 7; that a hung block's step answers the
same state is log 8. That the working registers keep their values after a failure is log 33; that only the
transport acts past the end of the script is log 21. -/
def Obligations.AnswersPastTheScriptAreFree : Prop :=
  ∀ (s : State) (b : Byte) (q : List Byte), s.phase = .busy → s.txq = b :: q → s.inputs = [] →
    match Config.freeAnswer s.draws with
    | .byte r => step s = step { s with
        draws := s.draws + 1
        txq := q
        trace := s.trace ++ [⟨b, some r⟩]
        acc := if (b :: q).length ≤ s.rxn then (s.acc <<< 8) ||| r.setWidth 32 else s.acc }
    | .fail => step s = .next
        (({ s with draws := s.draws + 1, trace := s.trace ++ [⟨b, none⟩] } : State).raise
          .transportFailure)
    | .hang => step s = .next s

/-- R96, R194 (D16, D22): the response record: code 0 for `Ok`, 1 for `InvalidRegister`, 2 for
`TransportFailure`; an `Ok(v)` carries its value. That no value stands beside another code is the model's
reading (DEDUCED, log 27): R96 gives the field a word in every case and only says when it is meaningful. -/
def Obligations.ResponseCodes : Prop :=
  (∀ r : Reply, (r.response.err = 0 ↔ ∀ e, r ≠ .error e) ∧
    (r.response.err = 1 ↔ ∃ id, r = .error (.invalidRegister id)) ∧
    (r.response.err = 2 ↔ r = .error .transportFailure) ∧
    (r.response.err ≠ 0 → r.response.value = none)) ∧
  ∀ v, (Reply.value v).response.value = some v
end

