-- ==== Sys2Proof/Laws/Operands.lean ====
section
/-! SUPPORT. One spec lemma for each function of Machine/Operands.lean: what it computes, in terms later
proofs use. -/

namespace Sys2Proof.Machine

@[simp] theorem txBytes_length (v : Word) (n : Nat) : (txBytes v n).length = n := by
  induction n with
  | zero => rfl
  | succ n ih => simp [txBytes, ih]

@[simp] theorem txBytes_zero (v : Word) : txBytes v 0 = [] := rfl

/-- Reading the `k`-th byte sent (R53): byte `N - 1 - k` of the word. -/
theorem txBytes_getElem (v : Word) (n k : Nat) (h : k < n) :
    (txBytes v n)[k]'(by simpa using h) = (v >>> (8 * (n - 1 - k))).setWidth 8 := by
  induction n generalizing k with
  | zero => omega
  | succ n ih =>
    cases k with
    | zero => simp [txBytes]
    | succ k =>
      have hk : k < n := by omega
      have e : n - 1 - k = n - (k + 1) := by omega
      simp [txBytes, ih k hk, e]

/-- The number a word's accumulator stands for after one more byte: the shift loses no bit while the
accumulator has at most 3 bytes' worth (R141). -/
theorem shiftIn_toNat (acc : Word) (r : Byte) (h : acc.toNat < 2 ^ 24) :
    (shiftIn acc r).toNat = acc.toNat * 256 + r.toNat := by
  have hr := r.isLt
  have e : shiftIn acc r = acc * 256#32 + r.setWidth 32 := by
    unfold shiftIn
    have h0 : (acc <<< 8) &&& r.setWidth 32 = 0#32 := by
      ext i hi
      simp only [BitVec.getElem_and, BitVec.getElem_shiftLeft, BitVec.getElem_setWidth,
        BitVec.getElem_zero]
      by_cases hi8 : i < 8
      · simp [hi8]
      · simp [BitVec.getLsbD_of_ge r i (by omega)]
    rw [← BitVec.add_eq_or_of_and_eq_zero _ _ h0, BitVec.shiftLeft_eq_mul_twoPow]
    rfl
  rw [e]
  simp only [BitVec.toNat_add, BitVec.toNat_mul, BitVec.toNat_setWidth, BitVec.toNat_ofNat]
  omega

/-- Masking keeps the value modulo `2^W` (R55). -/
theorem mask_toNat (v : Word) (w : Nat) (h : w ≤ 32) : (mask v w).toNat = v.toNat % 2 ^ w := by
  have hw : 2 ^ w ≤ 2 ^ 32 := Nat.pow_le_pow_right (by decide) h
  have h1 : 1 ≤ 2 ^ w := Nat.one_le_two_pow
  have : (2 ^ w - 1) % 2 ^ 32 = 2 ^ w - 1 := Nat.mod_eq_of_lt (by omega)
  simp only [mask, BitVec.toNat_and, BitVec.toNat_ofNat, this]
  exact Nat.and_two_pow_sub_one_eq_mod _ _

/-- The unsigned clamp never lets a word above the maximum out (R131). -/
theorem clampU_toNat (v m : Word) : (clampU v m).toNat = min v.toNat m.toNat := by
  simp only [clampU, BitVec.ult_eq_decide, decide_eq_true_eq]
  split <;> omega

/-- The signed clamp (R131). -/
theorem clampS_toInt (v m : Word) : (clampS v m).toInt = min v.toInt m.toInt := by
  simp only [clampS, BitVec.slt_eq_decide, decide_eq_true_eq]
  split <;> omega

/-- `ByteCount` is the least number of bytes that hold `W` bits (R52). -/
theorem byteCount_spec (w n : Nat) : byteCount w ≤ n ↔ w ≤ 8 * n := by
  simp only [byteCount]
  omega

/-- The byte count of a width of the registry is 1, 2 or 3 (R52, R141). -/
theorem byteCount_range (w : Nat) (h1 : 1 ≤ w) (h2 : w ≤ 22) :
    byteCount w = 1 ∨ byteCount w = 2 ∨ byteCount w = 3 := by
  simp only [byteCount]
  omega

/-- A legal direction is a single bit (R87). -/
theorem dirLegal_iff (dir : Byte) : dirLegal dir = true ↔ dir = 0 ∨ dir = 1 := by
  revert dir
  decide

/-- The opcode byte without an action flag is the base with the direction OR'd in (R86). -/
theorem opcode_dir (base dir : Byte) (h : dirLegal dir = true) :
    opcode base 0 (dirBit dir) = base ||| dir := by
  rcases (dirLegal_iff dir).1 h with rfl | rfl <;> simp [opcode, dirBit, actionShift, dirShift]

/-- The bytes of the word whose every byte is `d` are all `d` (R112, note). -/
theorem txBytes_dummyWord (d : Byte) (n : Nat) (h : n ≤ 3) :
    txBytes (dummyWord d) n = List.replicate n d := by
  have e : ∀ k, k < 4 → ((dummyWord d) >>> (8 * k)).setWidth 8 = d := by
    intro k hk
    have : k = 0 ∨ k = 1 ∨ k = 2 ∨ k = 3 := by omega
    rcases this with rfl | rfl | rfl | rfl <;> (revert d; decide)
  induction n with
  | zero => rfl
  | succ n ih => simp [txBytes, e n (by omega), ih (by omega), List.replicate_succ]

end Sys2Proof.Machine
end

