-- ==== Sys2Proof/Laws/State.lean ====
section
/-! SUPPORT. One lemma per field and named update of State: what the update leaves in the field. All are
simp lemmas, so that no proof unfolds a record update. -/

namespace Sys2Proof.Machine

/-! ## Writing IE -/

@[simp] theorem State.writeIE_phase (b : Bool) (s : State) : (s.writeIE b).phase = s.phase := rfl
@[simp] theorem State.writeIE_txq (b : Bool) (s : State) : (s.writeIE b).txq = s.txq := rfl
@[simp] theorem State.writeIE_rxn (b : Bool) (s : State) : (s.writeIE b).rxn = s.rxn := rfl
@[simp] theorem State.writeIE_acc (b : Bool) (s : State) : (s.writeIE b).acc = s.acc := rfl
@[simp] theorem State.writeIE_wreg (b : Bool) (s : State) : (s.writeIE b).wreg = s.wreg := rfl
@[simp] theorem State.writeIE_sgn (b : Bool) (s : State) : (s.writeIE b).sgn = s.sgn := rfl
@[simp] theorem State.writeIE_ies (b : Bool) (s : State) : (s.writeIE b).ies = s.ies := rfl
@[simp] theorem State.writeIE_ie (b : Bool) (s : State) : (s.writeIE b).ie = b := rfl
@[simp] theorem State.writeIE_trace (b : Bool) (s : State) : (s.writeIE b).trace = s.trace := rfl
@[simp] theorem State.writeIE_fmt (b : Bool) (s : State) : (s.writeIE b).fmt = s.fmt := rfl
@[simp] theorem State.writeIE_replies (b : Bool) (s : State) :
    (s.writeIE b).replies = s.replies := rfl
@[simp] theorem State.writeIE_undelivered (b : Bool) (s : State) :
    (s.writeIE b).undelivered = s.undelivered := rfl
@[simp] theorem State.writeIE_host (b : Bool) (s : State) : (s.writeIE b).host = s.host := rfl
@[simp] theorem State.writeIE_inputs (b : Bool) (s : State) :
    (s.writeIE b).inputs = s.inputs := rfl
@[simp] theorem State.writeIE_draws (b : Bool) (s : State) : (s.writeIE b).draws = s.draws := rfl
@[simp] theorem State.writeIE_irqWaiting (b : Bool) (s : State) :
    (s.writeIE b).irqWaiting = if b then 0 else s.irqWaiting := rfl
@[simp] theorem State.writeIE_irqTaken (b : Bool) (s : State) :
    (s.writeIE b).irqTaken = if b then s.irqTaken + s.irqWaiting else s.irqTaken := rfl
@[simp] theorem State.writeIE_cfg (b : Bool) (s : State) : (s.writeIE b).cfg = s.cfg := rfl

/-! ## Entering the critical section -/

@[simp] theorem State.enterCritical_phase (s : State) : (s.enterCritical).phase = s.phase := rfl
@[simp] theorem State.enterCritical_txq (s : State) : (s.enterCritical).txq = s.txq := rfl
@[simp] theorem State.enterCritical_rxn (s : State) : (s.enterCritical).rxn = s.rxn := rfl
@[simp] theorem State.enterCritical_acc (s : State) : (s.enterCritical).acc = s.acc := rfl
@[simp] theorem State.enterCritical_wreg (s : State) : (s.enterCritical).wreg = s.wreg := rfl
@[simp] theorem State.enterCritical_sgn (s : State) : (s.enterCritical).sgn = s.sgn := rfl
@[simp] theorem State.enterCritical_ies (s : State) : (s.enterCritical).ies = some s.ie := rfl
@[simp] theorem State.enterCritical_ie (s : State) : (s.enterCritical).ie = false := rfl
@[simp] theorem State.enterCritical_trace (s : State) : (s.enterCritical).trace = s.trace := rfl
@[simp] theorem State.enterCritical_fmt (s : State) : (s.enterCritical).fmt = s.fmt := rfl
@[simp] theorem State.enterCritical_replies (s : State) :
    (s.enterCritical).replies = s.replies := rfl
@[simp] theorem State.enterCritical_undelivered (s : State) :
    (s.enterCritical).undelivered = s.undelivered := rfl
@[simp] theorem State.enterCritical_host (s : State) : (s.enterCritical).host = s.host := rfl
@[simp] theorem State.enterCritical_inputs (s : State) : (s.enterCritical).inputs = s.inputs := rfl
@[simp] theorem State.enterCritical_draws (s : State) : (s.enterCritical).draws = s.draws := rfl
@[simp] theorem State.enterCritical_irqWaiting (s : State) :
    (s.enterCritical).irqWaiting = s.irqWaiting := rfl
@[simp] theorem State.enterCritical_irqTaken (s : State) :
    (s.enterCritical).irqTaken = s.irqTaken := rfl
@[simp] theorem State.enterCritical_cfg (s : State) : (s.enterCritical).cfg = s.cfg := rfl

/-! ## Restoring IE -/

@[simp] theorem State.restoreIE_phase (s : State) :
    (s.restoreIE).phase = s.phase := by
  cases h : s.ies <;> simp [State.restoreIE, h]
@[simp] theorem State.restoreIE_txq (s : State) :
    (s.restoreIE).txq = s.txq := by
  cases h : s.ies <;> simp [State.restoreIE, h]
@[simp] theorem State.restoreIE_rxn (s : State) :
    (s.restoreIE).rxn = s.rxn := by
  cases h : s.ies <;> simp [State.restoreIE, h]
@[simp] theorem State.restoreIE_acc (s : State) :
    (s.restoreIE).acc = s.acc := by
  cases h : s.ies <;> simp [State.restoreIE, h]
@[simp] theorem State.restoreIE_wreg (s : State) :
    (s.restoreIE).wreg = s.wreg := by
  cases h : s.ies <;> simp [State.restoreIE, h]
@[simp] theorem State.restoreIE_sgn (s : State) :
    (s.restoreIE).sgn = s.sgn := by
  cases h : s.ies <;> simp [State.restoreIE, h]
@[simp] theorem State.restoreIE_ies (s : State) :
    (s.restoreIE).ies = none := by
  cases h : s.ies <;> simp [State.restoreIE, h]
@[simp] theorem State.restoreIE_ie (s : State) :
    (s.restoreIE).ie = s.ies.getD s.ie := by
  cases h : s.ies <;> simp [State.restoreIE, h]
@[simp] theorem State.restoreIE_trace (s : State) :
    (s.restoreIE).trace = s.trace := by
  cases h : s.ies <;> simp [State.restoreIE, h]
@[simp] theorem State.restoreIE_fmt (s : State) :
    (s.restoreIE).fmt = s.fmt := by
  cases h : s.ies <;> simp [State.restoreIE, h]
@[simp] theorem State.restoreIE_replies (s : State) :
    (s.restoreIE).replies = s.replies := by
  cases h : s.ies <;> simp [State.restoreIE, h]
@[simp] theorem State.restoreIE_undelivered (s : State) :
    (s.restoreIE).undelivered = s.undelivered := by
  cases h : s.ies <;> simp [State.restoreIE, h]
@[simp] theorem State.restoreIE_host (s : State) :
    (s.restoreIE).host = s.host := by
  cases h : s.ies <;> simp [State.restoreIE, h]
@[simp] theorem State.restoreIE_inputs (s : State) :
    (s.restoreIE).inputs = s.inputs := by
  cases h : s.ies <;> simp [State.restoreIE, h]
@[simp] theorem State.restoreIE_draws (s : State) :
    (s.restoreIE).draws = s.draws := by
  cases h : s.ies <;> simp [State.restoreIE, h]
@[simp] theorem State.restoreIE_cfg (s : State) :
    (s.restoreIE).cfg = s.cfg := by
  cases h : s.ies <;> simp [State.restoreIE, h]

/-! ## Interrupts -/

@[simp] theorem State.holdInterrupt_phase (s : State) : (s.holdInterrupt).phase = s.phase := rfl
@[simp] theorem State.holdInterrupt_txq (s : State) : (s.holdInterrupt).txq = s.txq := rfl
@[simp] theorem State.holdInterrupt_rxn (s : State) : (s.holdInterrupt).rxn = s.rxn := rfl
@[simp] theorem State.holdInterrupt_acc (s : State) : (s.holdInterrupt).acc = s.acc := rfl
@[simp] theorem State.holdInterrupt_wreg (s : State) : (s.holdInterrupt).wreg = s.wreg := rfl
@[simp] theorem State.holdInterrupt_sgn (s : State) : (s.holdInterrupt).sgn = s.sgn := rfl
@[simp] theorem State.holdInterrupt_ies (s : State) : (s.holdInterrupt).ies = s.ies := rfl
@[simp] theorem State.holdInterrupt_ie (s : State) : (s.holdInterrupt).ie = s.ie := rfl
@[simp] theorem State.holdInterrupt_trace (s : State) : (s.holdInterrupt).trace = s.trace := rfl
@[simp] theorem State.holdInterrupt_fmt (s : State) : (s.holdInterrupt).fmt = s.fmt := rfl
@[simp] theorem State.holdInterrupt_replies (s : State) :
    (s.holdInterrupt).replies = s.replies := rfl
@[simp] theorem State.holdInterrupt_undelivered (s : State) :
    (s.holdInterrupt).undelivered = s.undelivered := rfl
@[simp] theorem State.holdInterrupt_host (s : State) : (s.holdInterrupt).host = s.host := rfl
@[simp] theorem State.holdInterrupt_inputs (s : State) : (s.holdInterrupt).inputs = s.inputs := rfl
@[simp] theorem State.holdInterrupt_draws (s : State) : (s.holdInterrupt).draws = s.draws := rfl
@[simp] theorem State.holdInterrupt_irqWaiting (s : State) :
    (s.holdInterrupt).irqWaiting = s.irqWaiting + 1 := rfl
@[simp] theorem State.holdInterrupt_irqTaken (s : State) :
    (s.holdInterrupt).irqTaken = s.irqTaken := rfl
@[simp] theorem State.holdInterrupt_cfg (s : State) : (s.holdInterrupt).cfg = s.cfg := rfl

@[simp] theorem State.takeInterrupt_phase (s : State) : (s.takeInterrupt).phase = s.phase := rfl
@[simp] theorem State.takeInterrupt_txq (s : State) : (s.takeInterrupt).txq = s.txq := rfl
@[simp] theorem State.takeInterrupt_rxn (s : State) : (s.takeInterrupt).rxn = s.rxn := rfl
@[simp] theorem State.takeInterrupt_acc (s : State) : (s.takeInterrupt).acc = s.acc := rfl
@[simp] theorem State.takeInterrupt_wreg (s : State) : (s.takeInterrupt).wreg = s.wreg := rfl
@[simp] theorem State.takeInterrupt_sgn (s : State) : (s.takeInterrupt).sgn = s.sgn := rfl
@[simp] theorem State.takeInterrupt_ies (s : State) : (s.takeInterrupt).ies = s.ies := rfl
@[simp] theorem State.takeInterrupt_ie (s : State) : (s.takeInterrupt).ie = s.ie := rfl
@[simp] theorem State.takeInterrupt_trace (s : State) : (s.takeInterrupt).trace = s.trace := rfl
@[simp] theorem State.takeInterrupt_fmt (s : State) : (s.takeInterrupt).fmt = s.fmt := rfl
@[simp] theorem State.takeInterrupt_replies (s : State) :
    (s.takeInterrupt).replies = s.replies := rfl
@[simp] theorem State.takeInterrupt_undelivered (s : State) :
    (s.takeInterrupt).undelivered = s.undelivered := rfl
@[simp] theorem State.takeInterrupt_host (s : State) : (s.takeInterrupt).host = s.host := rfl
@[simp] theorem State.takeInterrupt_inputs (s : State) : (s.takeInterrupt).inputs = s.inputs := rfl
@[simp] theorem State.takeInterrupt_draws (s : State) : (s.takeInterrupt).draws = s.draws := rfl
@[simp] theorem State.takeInterrupt_irqWaiting (s : State) :
    (s.takeInterrupt).irqWaiting = s.irqWaiting := rfl
@[simp] theorem State.takeInterrupt_irqTaken (s : State) :
    (s.takeInterrupt).irqTaken = s.irqTaken + 1 := rfl
@[simp] theorem State.takeInterrupt_cfg (s : State) : (s.takeInterrupt).cfg = s.cfg := rfl

/-! ## Delivering -/

@[simp] theorem State.deliver_phase (r : Reply) (s : State) : (s.deliver r).phase = s.phase := rfl
@[simp] theorem State.deliver_txq (r : Reply) (s : State) : (s.deliver r).txq = s.txq := rfl
@[simp] theorem State.deliver_rxn (r : Reply) (s : State) : (s.deliver r).rxn = s.rxn := rfl
@[simp] theorem State.deliver_acc (r : Reply) (s : State) : (s.deliver r).acc = s.acc := rfl
@[simp] theorem State.deliver_wreg (r : Reply) (s : State) : (s.deliver r).wreg = s.wreg := rfl
@[simp] theorem State.deliver_sgn (r : Reply) (s : State) : (s.deliver r).sgn = s.sgn := rfl
@[simp] theorem State.deliver_ies (r : Reply) (s : State) : (s.deliver r).ies = s.ies := rfl
@[simp] theorem State.deliver_ie (r : Reply) (s : State) : (s.deliver r).ie = s.ie := rfl
@[simp] theorem State.deliver_trace (r : Reply) (s : State) : (s.deliver r).trace = s.trace := rfl
@[simp] theorem State.deliver_fmt (r : Reply) (s : State) : (s.deliver r).fmt = s.fmt := rfl
@[simp] theorem State.deliver_replies (r : Reply) (s : State) :
    (s.deliver r).replies = s.replies ++ [r] := rfl
@[simp] theorem State.deliver_undelivered (r : Reply) (s : State) :
    (s.deliver r).undelivered = false := rfl
@[simp] theorem State.deliver_host (r : Reply) (s : State) : (s.deliver r).host = s.host := rfl
@[simp] theorem State.deliver_inputs (r : Reply) (s : State) :
    (s.deliver r).inputs = s.inputs := rfl
@[simp] theorem State.deliver_draws (r : Reply) (s : State) : (s.deliver r).draws = s.draws := rfl
@[simp] theorem State.deliver_irqWaiting (r : Reply) (s : State) :
    (s.deliver r).irqWaiting = s.irqWaiting := rfl
@[simp] theorem State.deliver_irqTaken (r : Reply) (s : State) :
    (s.deliver r).irqTaken = s.irqTaken := rfl
@[simp] theorem State.deliver_cfg (r : Reply) (s : State) : (s.deliver r).cfg = s.cfg := rfl

/-! ## Raising an error -/

@[simp] theorem State.raise_phase (e : BlockError) (s : State) :
    (s.raise e).phase = .idle := by
  simp [State.raise]
@[simp] theorem State.raise_txq (e : BlockError) (s : State) :
    (s.raise e).txq = [] := by
  simp [State.raise]
@[simp] theorem State.raise_rxn (e : BlockError) (s : State) :
    (s.raise e).rxn = s.rxn := by
  simp [State.raise]
@[simp] theorem State.raise_acc (e : BlockError) (s : State) :
    (s.raise e).acc = s.acc := by
  simp [State.raise]
@[simp] theorem State.raise_wreg (e : BlockError) (s : State) :
    (s.raise e).wreg = s.wreg := by
  simp [State.raise]
@[simp] theorem State.raise_sgn (e : BlockError) (s : State) :
    (s.raise e).sgn = s.sgn := by
  simp [State.raise]
@[simp] theorem State.raise_ies (e : BlockError) (s : State) :
    (s.raise e).ies = none := by
  simp [State.raise]
@[simp] theorem State.raise_ie (e : BlockError) (s : State) :
    (s.raise e).ie = s.ies.getD s.ie := by
  simp [State.raise]
@[simp] theorem State.raise_trace (e : BlockError) (s : State) :
    (s.raise e).trace = s.trace := by
  simp [State.raise]
@[simp] theorem State.raise_fmt (e : BlockError) (s : State) :
    (s.raise e).fmt = s.fmt := by
  simp [State.raise]
@[simp] theorem State.raise_replies (e : BlockError) (s : State) :
    (s.raise e).replies = s.replies ++ [.error e] := by
  simp [State.raise]
@[simp] theorem State.raise_undelivered (e : BlockError) (s : State) :
    (s.raise e).undelivered = false := by
  simp [State.raise]
@[simp] theorem State.raise_host (e : BlockError) (s : State) :
    (s.raise e).host = s.host := by
  simp [State.raise]
@[simp] theorem State.raise_inputs (e : BlockError) (s : State) :
    (s.raise e).inputs = s.inputs := by
  simp [State.raise]
@[simp] theorem State.raise_draws (e : BlockError) (s : State) :
    (s.raise e).draws = s.draws := by
  simp [State.raise]
@[simp] theorem State.raise_cfg (e : BlockError) (s : State) :
    (s.raise e).cfg = s.cfg := by
  simp [State.raise]

/-! ## Completing -/

@[simp] theorem State.complete_phase (s : State) :
    (s.complete).phase = .idle := by
  simp [State.complete]
@[simp] theorem State.complete_txq (s : State) :
    (s.complete).txq = s.txq := by
  simp [State.complete]
@[simp] theorem State.complete_rxn (s : State) :
    (s.complete).rxn = s.rxn := by
  simp [State.complete]
@[simp] theorem State.complete_acc (s : State) :
    (s.complete).acc = s.acc := by
  simp [State.complete]
@[simp] theorem State.complete_wreg (s : State) :
    (s.complete).wreg = s.wreg := by
  simp [State.complete]
@[simp] theorem State.complete_sgn (s : State) :
    (s.complete).sgn = s.sgn := by
  simp [State.complete]
@[simp] theorem State.complete_ies (s : State) :
    (s.complete).ies = none := by
  simp [State.complete]
@[simp] theorem State.complete_ie (s : State) :
    (s.complete).ie = s.ies.getD s.ie := by
  simp [State.complete]
@[simp] theorem State.complete_trace (s : State) :
    (s.complete).trace = s.trace := by
  simp [State.complete]
@[simp] theorem State.complete_fmt (s : State) :
    (s.complete).fmt = s.fmt := by
  simp [State.complete]
@[simp] theorem State.complete_replies (s : State) :
    (s.complete).replies = s.replies ++ [s.result] := by
  simp [State.complete]
@[simp] theorem State.complete_undelivered (s : State) :
    (s.complete).undelivered = false := by
  simp [State.complete]
@[simp] theorem State.complete_host (s : State) :
    (s.complete).host = s.host := by
  simp [State.complete]
@[simp] theorem State.complete_inputs (s : State) :
    (s.complete).inputs = s.inputs := by
  simp [State.complete]
@[simp] theorem State.complete_draws (s : State) :
    (s.complete).draws = s.draws := by
  simp [State.complete]
@[simp] theorem State.complete_cfg (s : State) :
    (s.complete).cfg = s.cfg := by
  simp [State.complete]

/-! ## Accepting -/

@[simp] theorem State.accept_phase (f : Format) (bs : List Byte) (n : Nat) (s : State) :
    (s.accept f bs n).phase = .busy := rfl
@[simp] theorem State.accept_txq (f : Format) (bs : List Byte) (n : Nat) (s : State) :
    (s.accept f bs n).txq = bs := rfl
@[simp] theorem State.accept_rxn (f : Format) (bs : List Byte) (n : Nat) (s : State) :
    (s.accept f bs n).rxn = n := rfl
@[simp] theorem State.accept_acc (f : Format) (bs : List Byte) (n : Nat) (s : State) :
    (s.accept f bs n).acc = 0 := rfl
@[simp] theorem State.accept_wreg (f : Format) (bs : List Byte) (n : Nat) (s : State) :
    (s.accept f bs n).wreg = s.wreg := rfl
@[simp] theorem State.accept_sgn (f : Format) (bs : List Byte) (n : Nat) (s : State) :
    (s.accept f bs n).sgn = s.sgn := rfl
@[simp] theorem State.accept_ies (f : Format) (bs : List Byte) (n : Nat) (s : State) :
    (s.accept f bs n).ies = s.ies := rfl
@[simp] theorem State.accept_ie (f : Format) (bs : List Byte) (n : Nat) (s : State) :
    (s.accept f bs n).ie = s.ie := rfl
@[simp] theorem State.accept_trace (f : Format) (bs : List Byte) (n : Nat) (s : State) :
    (s.accept f bs n).trace = s.trace := rfl
@[simp] theorem State.accept_fmt (f : Format) (bs : List Byte) (n : Nat) (s : State) :
    (s.accept f bs n).fmt = f := rfl
@[simp] theorem State.accept_replies (f : Format) (bs : List Byte) (n : Nat) (s : State) :
    (s.accept f bs n).replies = s.replies := rfl
@[simp] theorem State.accept_undelivered (f : Format) (bs : List Byte) (n : Nat) (s : State) :
    (s.accept f bs n).undelivered = true := rfl
@[simp] theorem State.accept_host (f : Format) (bs : List Byte) (n : Nat) (s : State) :
    (s.accept f bs n).host = s.host := rfl
@[simp] theorem State.accept_inputs (f : Format) (bs : List Byte) (n : Nat) (s : State) :
    (s.accept f bs n).inputs = s.inputs := rfl
@[simp] theorem State.accept_draws (f : Format) (bs : List Byte) (n : Nat) (s : State) :
    (s.accept f bs n).draws = s.draws := rfl
@[simp] theorem State.accept_irqWaiting (f : Format) (bs : List Byte) (n : Nat) (s : State) :
    (s.accept f bs n).irqWaiting = s.irqWaiting := rfl
@[simp] theorem State.accept_irqTaken (f : Format) (bs : List Byte) (n : Nat) (s : State) :
    (s.accept f bs n).irqTaken = s.irqTaken := rfl
@[simp] theorem State.accept_cfg (f : Format) (bs : List Byte) (n : Nat) (s : State) :
    (s.accept f bs n).cfg = s.cfg := rfl

/-! ## Resetting -/

@[simp] theorem State.blockReset_phase (s : State) : (s.blockReset).phase = .idle := rfl
@[simp] theorem State.blockReset_txq (s : State) : (s.blockReset).txq = [] := rfl
@[simp] theorem State.blockReset_rxn (s : State) : (s.blockReset).rxn = 0 := rfl
@[simp] theorem State.blockReset_acc (s : State) : (s.blockReset).acc = 0 := rfl
@[simp] theorem State.blockReset_wreg (s : State) : (s.blockReset).wreg = 1 := rfl
@[simp] theorem State.blockReset_sgn (s : State) : (s.blockReset).sgn = false := rfl
@[simp] theorem State.blockReset_ies (s : State) : (s.blockReset).ies = none := rfl
@[simp] theorem State.blockReset_ie (s : State) :
    (s.blockReset).ie = Config.ieAfterReset s.draws := rfl
@[simp] theorem State.blockReset_trace (s : State) : (s.blockReset).trace = [] := rfl
@[simp] theorem State.blockReset_fmt (s : State) : (s.blockReset).fmt = .z := rfl
@[simp] theorem State.blockReset_replies (s : State) : (s.blockReset).replies = s.replies := rfl
@[simp] theorem State.blockReset_undelivered (s : State) :
    (s.blockReset).undelivered = s.undelivered := rfl
@[simp] theorem State.blockReset_host (s : State) : (s.blockReset).host = s.host := rfl
@[simp] theorem State.blockReset_inputs (s : State) : (s.blockReset).inputs = s.inputs := rfl
@[simp] theorem State.blockReset_draws (s : State) : (s.blockReset).draws = s.draws + 1 := rfl
@[simp] theorem State.blockReset_cfg (s : State) : (s.blockReset).cfg = s.cfg := rfl

/-! ## An exchange that returned -/

@[simp] theorem State.exchanged_phase (r : Byte) (s : State) :
    (s.exchanged r).phase = s.phase := by
  cases h : s.txq <;> simp [State.exchanged, h]
@[simp] theorem State.exchanged_txq (r : Byte) (s : State) :
    (s.exchanged r).txq = s.txq.tail := by
  cases h : s.txq <;> simp [State.exchanged, h]
@[simp] theorem State.exchanged_rxn (r : Byte) (s : State) :
    (s.exchanged r).rxn = s.rxn := by
  cases h : s.txq <;> simp [State.exchanged, h]
@[simp] theorem State.exchanged_wreg (r : Byte) (s : State) :
    (s.exchanged r).wreg = s.wreg := by
  cases h : s.txq <;> simp [State.exchanged, h]
@[simp] theorem State.exchanged_sgn (r : Byte) (s : State) :
    (s.exchanged r).sgn = s.sgn := by
  cases h : s.txq <;> simp [State.exchanged, h]
@[simp] theorem State.exchanged_ies (r : Byte) (s : State) :
    (s.exchanged r).ies = s.ies := by
  cases h : s.txq <;> simp [State.exchanged, h]
@[simp] theorem State.exchanged_ie (r : Byte) (s : State) :
    (s.exchanged r).ie = s.ie := by
  cases h : s.txq <;> simp [State.exchanged, h]
@[simp] theorem State.exchanged_fmt (r : Byte) (s : State) :
    (s.exchanged r).fmt = s.fmt := by
  cases h : s.txq <;> simp [State.exchanged, h]
@[simp] theorem State.exchanged_replies (r : Byte) (s : State) :
    (s.exchanged r).replies = s.replies := by
  cases h : s.txq <;> simp [State.exchanged, h]
@[simp] theorem State.exchanged_undelivered (r : Byte) (s : State) :
    (s.exchanged r).undelivered = s.undelivered := by
  cases h : s.txq <;> simp [State.exchanged, h]
@[simp] theorem State.exchanged_host (r : Byte) (s : State) :
    (s.exchanged r).host = s.host := by
  cases h : s.txq <;> simp [State.exchanged, h]
@[simp] theorem State.exchanged_inputs (r : Byte) (s : State) :
    (s.exchanged r).inputs = s.inputs := by
  cases h : s.txq <;> simp [State.exchanged, h]
@[simp] theorem State.exchanged_draws (r : Byte) (s : State) :
    (s.exchanged r).draws = s.draws := by
  cases h : s.txq <;> simp [State.exchanged, h]
@[simp] theorem State.exchanged_irqWaiting (r : Byte) (s : State) :
    (s.exchanged r).irqWaiting = s.irqWaiting := by
  cases h : s.txq <;> simp [State.exchanged, h]
@[simp] theorem State.exchanged_irqTaken (r : Byte) (s : State) :
    (s.exchanged r).irqTaken = s.irqTaken := by
  cases h : s.txq <;> simp [State.exchanged, h]
@[simp] theorem State.exchanged_cfg (r : Byte) (s : State) :
    (s.exchanged r).cfg = s.cfg := by
  cases h : s.txq <;> simp [State.exchanged, h]

/-- An exchange that returned, with the queue as it stood (R22 (b)). -/
theorem State.exchanged_cons {s : State} {b : Byte} {rest : List Byte} (h : s.txq = b :: rest)
    (r : Byte) :
    s.exchanged r =
      { s with
        trace := s.trace ++ [⟨b, some r⟩]
        txq := rest
        acc := if rest.length < s.rxn then shiftIn s.acc r else s.acc } := by
  simp [State.exchanged, h]

/-- An exchange that failed, with the queue as it stood (R193). -/
theorem State.exchangeFails_cons {s : State} {b : Byte} {rest : List Byte} (h : s.txq = b :: rest) :
    s.exchangeFails =
      ({ s with trace := s.trace ++ [⟨b, none⟩] } : State).raise .transportFailure := by
  simp [State.exchangeFails, h]

/-! ## No interrupt is lost (R197): those taken and those that wait add up to what they were -/

@[simp] theorem State.writeIE_interrupts (b : Bool) (s : State) :
    (s.writeIE b).irqTaken + (s.writeIE b).irqWaiting = s.irqTaken + s.irqWaiting := by
  cases b <;> rfl

@[simp] theorem State.restoreIE_interrupts (s : State) :
    s.restoreIE.irqTaken + s.restoreIE.irqWaiting = s.irqTaken + s.irqWaiting := by
  cases h : s.ies
  · simp [State.restoreIE, h]
  · simpa [State.restoreIE, h] using State.writeIE_interrupts _ s

@[simp] theorem State.raise_interrupts (e : BlockError) (s : State) :
    (s.raise e).irqTaken + (s.raise e).irqWaiting = s.irqTaken + s.irqWaiting :=
  State.restoreIE_interrupts { s with txq := [] }

@[simp] theorem State.complete_interrupts (s : State) :
    s.complete.irqTaken + s.complete.irqWaiting = s.irqTaken + s.irqWaiting :=
  State.restoreIE_interrupts s

/-- Restoring `IE` where none is saved changes nothing. -/
theorem State.restoreIE_none {s : State} (h : s.ies = none) : s.restoreIE = s := by
  simp [State.restoreIE, h]

end Sys2Proof.Machine
end

