-- ==== Sys2Proof/Laws/Ops.lean ====
section
/-! SUPPORT. What each shared operation of Machine/Ops.lean can do, said once: the equations of the
sequencer, its induction principle, its run over a script of answers, and what acceptance, the refusals
and the transfers leave. -/

namespace Sys2Proof.Machine

/-! ## The sequencer, entry by entry -/

@[simp] theorem serve_nil (s : State) : s.serve [] = .next (State.exchangeFree s.txq s) := rfl

/-- With nothing left to send the operation completes, whatever the script holds. -/
theorem serve_complete {s : State} (h : s.txq = []) (ins : List Input) :
    s.serve ins = .next s.complete := by
  cases ins with
  | nil => simp [h, State.exchangeFree]
  | cons x rest => simp [State.serve, h]

theorem serve_byte {s : State} (h : s.txq ≠ []) (r : Byte) (rest : List Input) :
    s.serve (.answer (.byte r) :: rest) = (State.exchanged r { s with inputs := rest }).serve rest := by
  simp [State.serve, h]

theorem serve_fail {s : State} (h : s.txq ≠ []) (rest : List Input) :
    s.serve (.answer .fail :: rest) = .next (State.exchangeFails { s with inputs := rest }) := by
  simp [State.serve, h]

theorem serve_hang {s : State} (h : s.txq ≠ []) (rest : List Input) :
    s.serve (.answer .hang :: rest) = .next s := by
  simp [State.serve, h]

theorem serve_interrupt_taken {s : State} (h : s.txq ≠ []) (hie : s.ie = true) (rest : List Input) :
    s.serve (.interrupt :: rest) = .next (State.takeInterrupt { s with inputs := rest }) := by
  simp [State.serve, h, hie]

theorem serve_interrupt_held {s : State} (h : s.txq ≠ []) (hie : s.ie = false) (rest : List Input) :
    s.serve (.interrupt :: rest) = (State.holdInterrupt { s with inputs := rest }).serve rest := by
  simp [State.serve, h, hie]

theorem serve_reset {s : State} (h : s.txq ≠ []) (rest : List Input) :
    s.serve (.reset :: rest) = .next (State.blockReset { s with inputs := rest }) := by
  simp [State.serve, h]

theorem serve_intrusion {s : State} (h : s.txq ≠ []) (k : Intrusion) (rest : List Input) :
    s.serve (.intrusion k :: rest) = .refused k.refusal := by
  simp [State.serve, h]

/-! ## The sequencer as a whole -/

/-- The induction over a run of the sequencer, packaged: a property `M` that every exchange, every held
interrupt and every entry consumed keeps, and a property `Q` that follows from it at each of the ways the
run can end, give `Q` of the state it answers. A reset need be considered only where one is scripted. -/
theorem serve_induct {M Q : State → Prop}
    (script : ∀ s rest, M s → M { s with inputs := rest })
    (draw : ∀ s, M s → M { s with draws := s.draws + 1 })
    (byte : ∀ s r, M s → s.txq ≠ [] → M (s.exchanged r))
    (wait : ∀ s, M s → s.ie = false → M s.holdInterrupt)
    (done : ∀ s, M s → s.txq = [] → Q s.complete)
    (fail : ∀ s, M s → s.txq ≠ [] → Q s.exchangeFails)
    (stuck : ∀ s, M s → s.txq ≠ [] → Q s)
    (taken : ∀ s, M s → s.txq ≠ [] → s.ie = true → Q s.takeInterrupt) :
    ∀ (ins : List Input) (s t : State),
      (Input.reset ∈ ins → ∀ s, M s → Q s.blockReset) → M s → s.serve ins = .next t → Q t := by
  have free : ∀ (l : List Byte) (s : State), l = s.txq → M s → Q (State.exchangeFree l s) := by
    intro l
    induction l with
    | nil => intro s hl hs; exact done s hs hl.symm
    | cons b rest ih =>
      intro s hl hs
      have hne : s.txq ≠ [] := by simp [← hl]
      simp only [State.exchangeFree]
      split
      · refine ih _ ?_ (byte _ _ (draw s hs) hne)
        simp [← hl]
      · exact fail _ (draw s hs) hne
      · exact stuck s hs hne
  intro ins
  induction ins with
  | nil =>
    intro s t _ hs h
    simp only [serve_nil, Host.Outcome.next.injEq] at h
    exact h ▸ free _ s rfl hs
  | cons x rest ih =>
    intro s t cut hs h
    have cut' : Input.reset ∈ rest → ∀ s, M s → Q s.blockReset :=
      fun hr => cut (List.mem_cons_of_mem _ hr)
    by_cases hq : s.txq = []
    · rw [serve_complete hq] at h
      exact Host.Outcome.next.inj h ▸ done s hs hq
    · cases x with
      | answer a =>
        cases a with
        | byte r =>
          rw [serve_byte hq] at h
          exact ih _ t cut' (byte _ _ (script s rest hs) hq) h
        | fail =>
          rw [serve_fail hq] at h
          exact Host.Outcome.next.inj h ▸ fail _ (script s rest hs) hq
        | hang =>
          rw [serve_hang hq] at h
          exact Host.Outcome.next.inj h ▸ stuck s hs hq
      | interrupt =>
        cases hie : s.ie with
        | true =>
          rw [serve_interrupt_taken hq hie] at h
          exact Host.Outcome.next.inj h ▸ taken _ (script s rest hs) hq hie
        | false =>
          rw [serve_interrupt_held hq hie] at h
          exact ih _ t cut' (wait _ (script s rest hs) hie) h
      | reset =>
        rw [serve_reset hq] at h
        exact Host.Outcome.next.inj h ▸ cut (List.mem_cons_self ..) _ (script s rest hs)
      | intrusion k =>
        rw [serve_intrusion hq] at h
        cases h

/-- The sequencer answers a next state unless another agent breaks the contract (R63, R205). -/
theorem serve_answers_next (ins : List Input) (s : State) (h : ∀ k, Input.intrusion k ∉ ins) :
    ∃ t, s.serve ins = .next t := by
  induction ins generalizing s with
  | nil => exact ⟨_, rfl⟩
  | cons x rest ih =>
    have h' : ∀ k, Input.intrusion k ∉ rest := fun k hk => h k (List.mem_cons_of_mem _ hk)
    by_cases hq : s.txq = []
    · exact ⟨_, serve_complete hq _⟩
    · cases x with
      | answer a =>
        cases a with
        | byte r => rw [serve_byte hq]; exact ih _ h'
        | fail => exact ⟨_, serve_fail hq _⟩
        | hang => exact ⟨_, serve_hang hq _⟩
      | interrupt =>
        cases hie : s.ie with
        | true => exact ⟨_, serve_interrupt_taken hq hie _⟩
        | false => rw [serve_interrupt_held hq hie]; exact ih _ h'
      | reset => exact ⟨_, serve_reset hq _⟩
      | intrusion k => exact absurd (List.mem_cons_self ..) (h k)

/-- A run over bytes that the transport answers: the events stand in the trace, the bytes sent leave the
queue, and those of the last `RXN` exchanges enter the accumulator, whatever comes after (R22 (b)). -/
theorem serve_bytes (rs : List Byte) (rest : List Input) (s : State)
    (hin : s.inputs = answers rs rest) (hlen : rs.length ≤ s.txq.length) :
    s.serve (answers rs rest) =
      State.serve rest
        { s with
          txq := s.txq.drop rs.length
          acc := (rs.drop (s.txq.length - s.rxn)).foldl shiftIn s.acc
          trace := s.trace ++ events s.txq rs
          inputs := rest } := by
  induction rs generalizing s with
  | nil =>
    simp only [answers, List.map_nil, List.nil_append] at hin
    cases s
    simp_all [answers, events]
  | cons r rs ih =>
    cases hq : s.txq with
    | nil => simp [hq] at hlen
    | cons b q =>
      have hne : s.txq ≠ [] := by simp [hq]
      have e : answers (r :: rs) rest = .answer (.byte r) :: answers rs rest := rfl
      rw [e, serve_byte hne, ih]
      · congr 1
        rw [State.exchanged_cons (s := { s with inputs := answers rs rest }) hq]
        simp only [List.length_cons, events, List.zipWith_cons_cons, List.append_assoc,
          List.cons_append, List.nil_append, List.drop_succ_cons]
        congr 1
        by_cases hr : q.length < s.rxn
        · have e1 : q.length + 1 - s.rxn = 0 := by omega
          have e2 : q.length - s.rxn = 0 := by omega
          simp [hr, e1, e2]
        · have e1 : q.length + 1 - s.rxn = (q.length - s.rxn) + 1 := by omega
          simp [hr, e1]
      · simp
      · simp only [State.exchanged_txq, hq, List.tail_cons]
        simpa [hq] using hlen

/-- Interrupts that arrive while `IE` is 0 are counted and wait, and the sequencer goes on (R197). -/
theorem serve_interrupts {s : State} (hie : s.ie = false) (hq : s.txq ≠ []) (n : Nat) {rest : List Input}
    (hin : s.inputs = interrupts n rest) :
    s.serve (interrupts n rest) =
      State.serve rest { s with inputs := rest, irqWaiting := s.irqWaiting + n } := by
  induction n generalizing s with
  | zero =>
    simp only [interrupts, List.replicate_zero, List.nil_append] at hin ⊢
    cases s
    simp_all
  | succ n ih =>
    rw [show interrupts (n + 1) rest = .interrupt :: interrupts n rest from rfl,
      serve_interrupt_held hq hie, ih] <;> simp [State.holdInterrupt, hie, hq, Nat.add_assoc, Nat.add_comm 1]

/-- The next exchange answered after `n` interrupts have arrived while `IE` is 0. -/
theorem serve_interrupts_byte {s : State} {b : Byte} {q : List Byte} (hie : s.ie = false)
    (hq : s.txq = b :: q) (n : Nat) (r : Byte) {rest : List Input}
    (hin : s.inputs = interrupts n (.answer (.byte r) :: rest)) :
    s.serve (interrupts n (.answer (.byte r) :: rest)) =
      State.serve rest
        { s with
          inputs := rest
          irqWaiting := s.irqWaiting + n
          trace := s.trace ++ [⟨b, some r⟩]
          txq := q
          acc := if q.length < s.rxn then shiftIn s.acc r else s.acc } := by
  rw [serve_interrupts hie (by simp [hq]) n hin, serve_byte (by simp [hq]),
    State.exchanged_cons (b := b) (rest := q) (by exact hq)]

/-- What two runs share that differ only in the interrupts that arrived and waited. -/
def State.SameButInterrupts (s s' : State) : Prop :=
  s' = { s with inputs := quiet s.inputs, irqTaken := s'.irqTaken, irqWaiting := s'.irqWaiting }

/-! Every way the sequencer goes on or ends keeps it. -/

theorem State.SameButInterrupts.script {s s' : State} (h : s.SameButInterrupts s') (rest : List Input) :
    ({ s with inputs := rest } : State).SameButInterrupts { s' with inputs := quiet rest } := by
  rw [State.SameButInterrupts] at *
  rw [h]

theorem State.SameButInterrupts.exchanged {s s' : State} (h : s.SameButInterrupts s') (r : Byte) :
    (s.exchanged r).SameButInterrupts (s'.exchanged r) := by
  rw [State.SameButInterrupts] at *
  rw [h]
  cases hq : s.txq <;> simp [State.exchanged, hq]

theorem State.SameButInterrupts.complete {s s' : State} (h : s.SameButInterrupts s') :
    s.complete.SameButInterrupts s'.complete := by
  rw [State.SameButInterrupts] at *
  rw [h]
  cases hi : s.ies <;>
    simp [State.complete, State.restoreIE, hi, State.writeIE, State.deliver, State.result]

theorem State.SameButInterrupts.fails {s s' : State} (h : s.SameButInterrupts s') :
    s.exchangeFails.SameButInterrupts s'.exchangeFails := by
  rw [State.SameButInterrupts] at *
  rw [h]
  cases hi : s.ies <;> cases hq : s.txq <;>
    simp [State.exchangeFails, State.raise, State.restoreIE, hi, hq, State.writeIE, State.deliver]

theorem State.SameButInterrupts.reset {s s' : State} (h : s.SameButInterrupts s') :
    s.blockReset.SameButInterrupts s'.blockReset := by
  rw [State.SameButInterrupts] at *
  rw [h]
  simp [State.blockReset, State.writeIE]

theorem State.SameButInterrupts.free : ∀ (l : List Byte) {s s' : State}, s.SameButInterrupts s' →
    (State.exchangeFree l s).SameButInterrupts (State.exchangeFree l s') := by
  intro l
  induction l with
  | nil => intro s s' h; exact h.complete
  | cons b rest ih =>
    intro s s' h
    have d : ({ s with draws := s.draws + 1 } : State).SameButInterrupts
        { s' with draws := s'.draws + 1 } := by
      rw [State.SameButInterrupts] at *
      rw [h]
    have e : s'.draws = s.draws := by rw [h]
    simp only [State.exchangeFree, e] at d ⊢
    split
    · exact ih (d.exchanged _)
    · exact d.fails
    · exact h

/-- While `IE` is 0 the interrupts of the script change nothing of what the sequencer does but the counters:
without them it answers the same, in the same state (R197). -/
theorem serve_quiet (ins : List Input) (s s' : State) (hin : s.inputs = ins) (hie : s.ie = false)
    (h : s.SameButInterrupts s') :
    (∀ t', s'.serve (quiet ins) = .next t' → ∃ t, s.serve ins = .next t ∧ t.SameButInterrupts t') ∧
    ∀ r, s'.serve (quiet ins) = .refused r → s.serve ins = .refused r := by
  have fin : ∀ {s s' : State} {o : Result}, s.SameButInterrupts s' → o = .next s →
    (∀ t', (.next s' : Result) = .next t' → ∃ t, o = .next t ∧ t.SameButInterrupts t') ∧
    ∀ r, (.next s' : Result) = .refused r → o = .refused r := by
    intro s s' o h e
    exact ⟨fun t' e' => ⟨s, e, Host.Outcome.next.inj e' ▸ h⟩, fun r e => by cases e⟩
  induction ins generalizing s s' with
  | nil =>
    have e : s'.txq = s.txq := by rw [h]
    simp only [quiet, List.filter_nil, serve_nil, e]
    exact fin (State.SameButInterrupts.free s.txq h) rfl
  | cons x rest ih =>
    have e : s'.txq = s.txq := by rw [h]
    by_cases hq : s.txq = []
    · rw [serve_complete hq, serve_complete (e.trans hq)]
      exact fin h.complete rfl
    · have hq' : s'.txq ≠ [] := by rwa [e]
      cases x with
      | answer a =>
        rw [show quiet (.answer a :: rest) = .answer a :: quiet rest by simp [quiet]]
        cases a with
        | byte r =>
          rw [serve_byte hq, serve_byte hq']
          exact ih _ _ (by simp) (by simpa using hie) ((h.script rest).exchanged r)
        | fail =>
          rw [serve_fail hq, serve_fail hq']
          exact fin (h.script rest).fails rfl
        | hang =>
          rw [serve_hang hq, serve_hang hq']
          exact fin h rfl
      | interrupt =>
        rw [show quiet (.interrupt :: rest) = quiet rest by simp [quiet],
          serve_interrupt_held hq hie]
        refine ih _ _ (by simp) (by simpa using hie) ?_
        rw [State.SameButInterrupts] at *
        rw [h]
        simp [State.holdInterrupt, quiet, hin]
      | reset =>
        rw [show quiet (.reset :: rest) = .reset :: quiet rest by simp [quiet], serve_reset hq,
          serve_reset hq']
        exact fin (h.script rest).reset rfl
      | intrusion k =>
        rw [show quiet (.intrusion k :: rest) = .intrusion k :: quiet rest by simp [quiet], serve_intrusion hq,
          serve_intrusion hq']
        exact ⟨fun _ e => (by cases e), fun _ e => e⟩

/-- The accumulator after at most 3 bytes is their big-endian number (R54). -/
theorem foldl_shiftIn (rs : List Byte) (h : rs.length ≤ 3) :
    rs.foldl shiftIn 0 = BitVec.ofNat 32 (bigEndian rs) := by
  have key : ∀ (rs : List Byte) (acc : Word) (n k : Nat), acc.toNat = n → n < 2 ^ (8 * k) →
      k + rs.length ≤ 3 →
      (rs.foldl shiftIn acc).toNat = rs.foldl (fun n r => n * 256 + r.toNat) n ∧
        rs.foldl (fun n r => n * 256 + r.toNat) n < 2 ^ 24 := by
    intro rs
    induction rs with
    | nil =>
      intro acc n k hn hlt hk
      have : 2 ^ (8 * k) ≤ 2 ^ 24 := Nat.pow_le_pow_right (by decide) (by simp at hk; omega)
      exact ⟨hn, by simpa using (by omega : n < 2 ^ 24)⟩
    | cons r rs ih =>
      intro acc n k hn hlt hk
      have hk' : k + 1 + rs.length ≤ 3 := by simp at hk; omega
      have hle : 2 ^ (8 * k) ≤ 2 ^ 24 := Nat.pow_le_pow_right (by decide) (by omega)
      have hr := r.isLt
      have hp : 2 ^ (8 * (k + 1)) = 2 ^ (8 * k) * 256 := by
        rw [Nat.mul_add, Nat.pow_add]
      simp only [List.foldl_cons]
      refine ih (shiftIn acc r) (n * 256 + r.toNat) (k + 1) ?_ ?_ hk'
      · rw [shiftIn_toNat acc r (by omega), hn]
      · omega
  obtain ⟨h1, h2⟩ := key rs 0 0 0 rfl (by decide) (by omega)
  apply BitVec.eq_of_toNat_eq
  rw [h1, BitVec.toNat_ofNat]
  exact (Nat.mod_eq_of_lt (Nat.lt_trans h2 (by decide))).symm

/-! ## The checks and the transfers -/

/-- A request while the block is busy is refused (R205). -/
theorem whenIdle_busy {s : State} (h : s.phase = .busy) (k : Result) :
    s.whenIdle k = .refused .requestWhileBusy := by
  simp [State.whenIdle, h]

/-- In a state that meets the launch premises the checks let the operation through (R33, R6). -/
theorem whenIdle_ready {s : State} (h : s.Ready) (k : Result) : s.whenIdle k = k := by
  obtain ⟨hp, -, -, hc⟩ := h
  simp [State.whenIdle, hp, hc]

theorem withDirection_legal {dir : Byte} (h : dirLegal dir = true) (k : Result) :
    withDirection dir k = k := by
  simp [withDirection, h]

theorem withDirection_illegal {dir : Byte} (h : dirLegal dir = false) (k : Result) :
    withDirection dir k = .refused (.directionBits dir) := by
  simp [withDirection, h]

/-- An identifier that is not in the registry: no exchange, nothing changed but the outcome delivered
(R191, R199). -/
theorem raise_ready {s : State} (h : s.Ready) (e : BlockError) :
    s.raise e = { s with replies := s.replies ++ [.error e], undelivered := false } := by
  obtain ⟨hp, hq, hi, -⟩ := h
  cases s
  simp_all [State.raise, State.restoreIE, State.deliver]

end Sys2Proof.Machine
end

