-- ==== Sys2Proof/Laws/Transactions.lean ====
section
/-! SUPPORT. Every operation is one transaction: what the registry of a well-formed configuration gives,
and, for each operation, the transaction it begins, so that later proofs are about the sequencer and
never unfold a meaning. -/

namespace Sys2Proof.Machine

/-! ## The registry of a well-formed configuration (R6, R61) -/

theorem wf_entryOk {c : Cfg} (h : c.wf = true) {e : RegEntry} (he : e ∈ c.registry) :
    (1 ≤ e.width ∧ e.width ≤ 22) ∧ (e.signed = true ↔ e.id = c.absPos ∨ e.id = c.mark) ∧
      (e.signed = true → e.width = 22) := by
  simp only [Cfg.wf, Bool.and_eq_true, List.all_eq_true] at h
  have := h.1.1.1.1.1 e he
  simp only [Cfg.entryOk, Bool.and_eq_true, decide_eq_true_eq, beq_iff_eq, Bool.or_eq_true,
    Bool.not_eq_true'] at this
  obtain ⟨⟨⟨h1, h2⟩, h3⟩, h4⟩ := this
  refine ⟨⟨h1, h2⟩, ?_, ?_⟩
  · simp [h3]
  · intro hs
    rcases h4 with h4 | h4
    · simp [hs] at h4
    · exact h4

theorem entry_mem {c : Cfg} {id : Byte} {e : RegEntry} (h : c.entry id = some e) :
    e ∈ c.registry ∧ e.id = id := by
  refine ⟨List.mem_of_find?_eq_some h, ?_⟩
  simpa using List.find?_some h

/-- A width the registry gives lies in 1 to 22 (R6 (a)). -/
theorem widthOf_range {c : Cfg} (h : c.wf = true) {id : Byte} {w : Nat} (hw : c.widthOf id = some w) :
    1 ≤ w ∧ w ≤ 22 := by
  simp only [Cfg.widthOf, Option.map_eq_some_iff] at hw
  obtain ⟨e, he, rfl⟩ := hw
  exact (wf_entryOk h (entry_mem he).1).1

/-- A position register has width 22 and is signed (R6 (b), (d)). -/
theorem position_entry {c : Cfg} (h : c.wf = true) {id : Byte} (hid : id = c.absPos ∨ id = c.mark) :
    c.widthOf id = some 22 ∧ c.signedOf id = some true := by
  have hd : (c.entry c.absPos).isSome = true ∧ (c.entry c.mark).isSome = true := by
    simp only [Cfg.wf, Bool.and_eq_true] at h
    exact ⟨h.1.1.1.2, h.1.1.2⟩
  have : (c.entry id).isSome = true := by rcases hid with rfl | rfl <;> simp [hd]
  obtain ⟨e, he⟩ := Option.isSome_iff_exists.1 this
  obtain ⟨hm, hi⟩ := entry_mem he
  obtain ⟨-, h2, h3⟩ := wf_entryOk h hm
  have hs : e.signed = true := h2.2 (by simpa [hi] using hid)
  exact ⟨by simp [Cfg.widthOf, he, h3 hs], by simp [Cfg.signedOf, he, hs]⟩

/-- The electrical position is in the registry (R6 (d)). -/
theorem elPos_entry {c : Cfg} (h : c.wf = true) : ∃ w, c.widthOf c.elPos = some w := by
  simp only [Cfg.wf, Bool.and_eq_true] at h
  obtain ⟨e, he⟩ := Option.isSome_iff_exists.1 h.1.2
  exact ⟨e.width, by simp [Cfg.widthOf, he]⟩

/-! ## Bytes -/

/-- The bytes of a word as the rules list them are what the block extracts (R53, R83). -/
theorem lowBytes_eq (v : Word) {n : Nat} (h : n = 1 ∨ n = 2 ∨ n = 3) : lowBytes n v = txBytes v n := by
  rcases h with rfl | rfl | rfl <;> simp [lowBytes, txBytes] <;> (try constructor) <;>
    (try constructor) <;> (ext i hi; simp)

/-! ## A transaction from its acceptance on -/

/-- The transaction of `x` begun in `s`: accepted, nothing exchanged yet (R22 (a)). -/
def State.begun (s : State) (x : Transaction) : State := s.midway x [] s.inputs

/-- What a rule's transaction keeps of the interrupt enable: untouched, or saved and cleared (R171). -/
def Transaction.keepsIE (x : Transaction) (s : State) : Prop :=
  (x.ies = none ∧ x.ie = s.ie) ∨
    (x.ies = some s.ie ∧ x.ie = false ∧ (s.ie = true → s.irqWaiting = 0))

/-- Begun, then answered by `rs`, the sequencer stands midway with the rest of the script. -/
theorem resume_begun {s : State} {x : Transaction} (hr : x.rxn + 1 ≤ x.out.length) (h4 : x.out.length ≤ 4)
    {rs : List Byte} {rest : List Input} (hin : s.inputs = answers rs rest)
    (hlen : rs.length ≤ x.out.length) :
    (s.begun x).resume = (s.midway x rs rest).serve rest := by
  have e : (s.begun x).inputs = answers rs rest := hin
  rw [State.resume, e, serve_bytes rs rest _ e (by simpa [State.begun, State.midway] using hlen)]
  congr 1
  have hl : (rs.drop (x.out.length - x.rxn)).length ≤ 3 := by
    rw [List.length_drop]
    omega
  simp only [State.begun, State.midway, List.length_nil, List.drop_zero]
  congr 1
  · rw [show BitVec.ofNat 32 (bigEndian (List.drop (x.out.length - x.rxn) [])) = 0 by
      simp [bigEndian]]
    exact foldl_shiftIn _ hl
  · simp [events]

/-- The state after exchange `rs.length` of the transaction has failed (R193, R199): the exchanges before
it stand in the trace, then the attempt with no received byte; the rest is not sent; the block is idle,
`IE` as it was, `TransportFailure` delivered. -/
def State.afterFailure (s : State) (x : Transaction) (rs : List Byte) (rest : List Input) : State :=
  { s.midway x rs rest with
    phase := .idle, txq := [], ie := s.ie, ies := none
    trace := s.trace ++ events x.out rs ++ ((x.out.drop rs.length).take 1).map (fun b => ⟨b, none⟩)
    replies := s.replies ++ [.error .transportFailure], undelivered := false }

/-- A begun transaction whose every exchange is answered ends `Ok`. -/
theorem begun_answered {s : State} {x : Transaction} (hr : x.rxn + 1 ≤ x.out.length)
    (h4 : x.out.length ≤ 4) (hie : x.keepsIE s) {rs : List Byte} {rest : List Input}
    (hin : s.inputs = answers rs rest) (hlen : rs.length = x.out.length) :
    (s.begun x).resume = .next (s.afterOk x rs rest (s.midway x rs rest).result) := by
  rw [resume_begun hr h4 hin (by omega), serve_complete (by simp [State.midway, hlen])]
  simp only [State.complete]
  generalize (s.midway x rs rest).result = r
  congr 1
  rcases hie with ⟨h1, h2⟩ | ⟨h1, h2, h3⟩
  · rw [State.restoreIE_none (by simp [State.midway, h1])]
    simp [State.deliver, State.afterOk, State.midway, h1, h2, hlen]
  · cases hb : s.ie <;>
      simp_all [State.deliver, State.afterOk, State.midway, State.restoreIE, State.writeIE]

/-- A begun transaction with an exchange that fails ends there. -/
theorem begun_fails {s : State} {x : Transaction} (hr : x.rxn + 1 ≤ x.out.length)
    (h4 : x.out.length ≤ 4) (hie : x.keepsIE s) {rs : List Byte} {rest : List Input}
    (hin : s.inputs = answers rs (.answer .fail :: rest)) (hlen : rs.length < x.out.length) :
    (s.begun x).resume = .next (s.afterFailure x rs rest) := by
  have hne : (s.midway x rs (.answer .fail :: rest)).txq ≠ [] := by simp [State.midway, hlen]
  rw [resume_begun hr h4 hin (by omega), serve_fail hne]
  congr 1
  obtain ⟨b, q, hbq⟩ := List.exists_cons_of_ne_nil hne
  have hbq' : x.out.drop rs.length = b :: q := hbq
  rw [State.exchangeFails_cons (b := b) (rest := q) hbq']
  rcases hie with ⟨h1, h2⟩ | ⟨h1, h2, h3⟩
  · simp [State.raise, State.restoreIE, State.deliver, State.afterFailure, State.midway, h1, h2,
      hbq']
  · cases hb : s.ie <;>
      simp_all [State.raise, State.deliver, State.afterFailure, State.midway, State.restoreIE,
        State.writeIE]

/-- The way an operation of the rules goes, once its meaning is known to begin transaction `x`: this is
the whole of `Performs`. -/
theorem performs_of_begun {i : Instr} {s : State} {x : Transaction} {reply : List Byte → Reply}
    (hr : x.rxn + 1 ≤ x.out.length) (h4 : x.out.length ≤ 4) (hie : x.keepsIE s)
    (hexec : exec i s = (s.begun x).resume)
    (hres : ∀ rs rest, rs.length = x.out.length → (s.midway x rs rest).result = reply rs) :
    Performs i s x reply := by
  refine ⟨fun rs rest hlen hin => ?_, fun rs rest hlen hin => ?_⟩
  · rw [hexec, begun_answered hr h4 hie hin hlen, hres rs rest hlen]
  · exact ⟨_, by rw [hexec, begun_fails hr h4 hie hin hlen], rfl⟩

/-! ## Which transaction each shared transfer begins -/

theorem sendCommand0_begun {s : State} (hs : s.Ready) (opc : Byte) :
    sendCommand0 opc s = (s.begun (s.plain .z [opc])).resume := by
  obtain ⟨-, -, hi, -⟩ := hs
  simp [sendCommand0, State.accept, State.begun, State.midway, State.plain, events, bigEndian, hi]

theorem sendCommand3_begun {s : State} (hs : s.Ready) (opc : Byte) (p : Word) :
    sendCommand3 opc p s = (s.begun (s.plain .p3 (opc :: lowBytes 3 p))).resume := by
  obtain ⟨-, -, hi, -⟩ := hs
  simp [sendCommand3, State.accept, State.begun, State.midway, State.plain, events, bigEndian, hi,
    lowBytes_eq p (n := 3) (by omega), cmdPayloadBytes]

theorem writeParam_begun {s : State} (hs : s.Ready) {id : Byte} {w : Nat}
    (hw : s.cfg.widthOf id = some w) (v : Word) :
    writeParam id v s =
      (s.begun (s.paramWrite ((s.cfg.setParamBase ||| id) :: lowBytes ((w + 7) / 8) v) w)).resume := by
  obtain ⟨h1, h2⟩ := widthOf_range hs.2.2.2 hw
  obtain ⟨-, -, hi, -⟩ := hs
  have hb := byteCount_range w h1 h2
  have e : (w + 7) / 8 = byteCount w := rfl
  simp [writeParam, hw, State.accept, State.begun, State.midway, State.paramWrite, events, bigEndian,
    hi, e, lowBytes_eq v hb]

theorem readParam_begun {s : State} (hs : s.Ready) {id : Byte} {w : Nat}
    (hw : s.cfg.widthOf id = some w) (g : Bool) :
    readParam id g s =
      (s.begun (s.paramRead ((s.cfg.getParamBase ||| id) ::
        List.replicate ((w + 7) / 8) s.cfg.dummy) w g)).resume := by
  obtain ⟨h1, h2⟩ := widthOf_range hs.2.2.2 hw
  obtain ⟨-, -, hi, -⟩ := hs
  have hb := byteCount_range w h1 h2
  have e : (w + 7) / 8 = byteCount w := rfl
  simp [readParam, hw, State.accept, State.begun, State.midway, State.paramRead, events, bigEndian,
    hi, e, txBytes_dummyWord s.cfg.dummy (byteCount w) (by omega)]

theorem getStatus_begun {s : State} (hs : s.Ready) :
    execGetStatus s = (s.begun s.statusRead).resume := by
  rw [execGetStatus, whenIdle_ready hs]
  obtain ⟨-, -, hi, -⟩ := hs
  cases hc : s.cfg.criticalStatus <;>
    simp [State.accept, State.begun, State.midway, State.statusRead, State.enterCritical,
      State.writeIE, events, bigEndian, hi, hc, statusBytes, List.replicate]

end Sys2Proof.Machine
end

