-- ==== Sys2Proof/Laws/Exec.lean ====
section
/-! SUPPORT. Every operation is one transaction: what `exec` begins for each operation, said once, so that
later proofs are about the sequencer and never unfold a meaning. -/

namespace Sys2Proof.Machine

/-- How many of the exchanges of a transaction of `n` bytes contribute to the result, by its format (R80). -/
def keptBytes (f : Format) (n : Nat) : Nat :=
  match f with
  | .pr => n - 1
  | .s2 => 2
  | .z => 0
  | .p3 => 0
  | .pw => 0

/-- Operation `i` in state `s` begins transaction `x`: its bytes and its format fix `RXN`; `WREG` and `SGN` are
written by the parameter accesses only; `IE` is saved and cleared by a critical status read only. -/
structure Begins (i : Instr) (s : State) (x : Transaction) : Prop where
  exec_eq : exec i s = (s.begun x).resume
  rxn : x.rxn + 1 ≤ x.out.length
  len : x.out.length ≤ 4
  fmt : x.fmt = i.format
  rxnval : x.rxn = keptBytes i.format x.out.length
  wreg : x.wreg = s.wreg ∨ (1 ≤ x.wreg ∧ x.wreg ≤ 22)
  wfix : i.format ≠ .pw → i.format ≠ .pr → x.wreg = s.wreg
  sfix : i.format ≠ .pr → x.sgn = s.sgn
  width : i.format = .pw ∨ i.format = .pr → ∃ id, i.regId s.cfg = some id ∧ s.cfg.widthOf id = some x.wreg
  path : i.format = .pr → x.sgn = decide (i = .getPos ∨ i = .getMark)
  ie : (x.ies = none ∧ x.ie = s.ie) ∨
    (x.ies = some s.ie ∧ x.ie = false ∧ i = .getStatus ∧ s.cfg.criticalStatus = true)
  crit : i = .getStatus → s.cfg.criticalStatus = true → x.ies = some s.ie

/-! ## Operands -/

theorem dirLegal_of {dir : Byte} (h : dir.extractLsb' 1 7 = 0) : dirLegal dir = true := by
  simp [dirLegal, h]

theorem dirIllegal_of {dir : Byte} (h : dir.extractLsb' 1 7 ≠ 0) : dirLegal dir = false := by
  simpa [dirLegal] using h

/-- The opcode byte with an action flag, as the encoding composes it (R86, R88). -/
theorem opcode_act (base action dir : Byte) (h : dirLegal dir = true) :
    opcode base (actBit action) (dirBit dir) =
      base ||| (if action.toNat > 0 then 0x08 else 0x00) ||| dir := by
  rcases (dirLegal_iff dir).1 h with rfl | rfl <;> by_cases ha : action.toNat > 0 <;>
    simp [opcode, dirBit, actBit, actionShift, dirShift, ha]

theorem lowBytes_length (v : Word) {n : Nat} (h : n = 1 ∨ n = 2 ∨ n = 3) :
    (lowBytes n v).length = n := by
  rcases h with rfl | rfl | rfl <;> rfl

/-! ## By format -/

theorem begins_p3 {i : Instr} {s : State} (hs : s.Ready) {opc : Byte} {p : Word}
    (hf : i.format = .p3) (h : exec i s = sendCommand3 opc p s) :
    Begins i s (s.plain .p3 (opc :: lowBytes 3 p)) := by
  constructor <;> (try simp [State.plain, lowBytes, hf, keptBytes])
  case exec_eq => rw [h, sendCommand3_begun hs]; rfl
  case crit => rintro rfl; simp [Instr.format] at hf

theorem begins_z {i : Instr} {s : State} (hs : s.Ready) {opc : Byte}
    (hf : i.format = .z) (h : exec i s = sendCommand0 opc s) : Begins i s (s.plain .z [opc]) := by
  constructor <;> (try simp [State.plain, hf, keptBytes])
  case exec_eq => rw [h, sendCommand0_begun hs]; rfl
  case crit => rintro rfl; simp [Instr.format] at hf

theorem begins_pw {i : Instr} {s : State} (hs : s.Ready) {id : Byte} {v : Word} {w : Nat}
    (hf : i.format = .pw) (hi : i.regId s.cfg = some id) (hw : s.cfg.widthOf id = some w) (h : exec i s = writeParam id v s) :
    Begins i s (s.paramWrite ((s.cfg.setParamBase ||| id) :: lowBytes ((w + 7) / 8) v) w) := by
  have hr := widthOf_range hs.2.2.2 hw
  have hl := lowBytes_length v (byteCount_range w hr.1 hr.2)
  simp only [byteCount] at hl
  constructor <;> (try simp [State.paramWrite, hf, hl, keptBytes])
  case exec_eq => rw [h, writeParam_begun hs hw]; rfl
  case len => omega
  case wreg => omega
  case crit => rintro rfl; simp [Instr.format] at hf
  case width => exact ⟨id, hi, hw⟩

theorem begins_pr {i : Instr} {s : State} (hs : s.Ready) {id : Byte} {g : Bool} {w : Nat}
    (hf : i.format = .pr) (hi : i.regId s.cfg = some id)
    (hg : g = decide (i = .getPos ∨ i = .getMark)) (hw : s.cfg.widthOf id = some w)
    (h : exec i s = readParam id g s) :
    Begins i s (s.paramRead ((s.cfg.getParamBase ||| id) ::
      List.replicate ((w + 7) / 8) s.cfg.dummy) w g) := by
  have hr := widthOf_range hs.2.2.2 hw
  constructor <;> (try simp [State.paramRead, hf, keptBytes])
  case exec_eq => rw [h, readParam_begun hs hw]; simp [State.paramRead]
  case len => omega
  case wreg => omega
  case crit => rintro rfl; simp [Instr.format] at hf
  case width => exact ⟨id, hi, hw⟩
  case path => simp [hg]

theorem begins_status {s : State} (hs : s.Ready) : Begins .getStatus s s.statusRead := by
  constructor
  case exec_eq => exact getStatus_begun hs
  all_goals
    cases hc : s.cfg.criticalStatus <;> simp [State.statusRead, hc, Instr.format, keptBytes]

/-! ## For every operation -/

/-- A well-formed operation in a ready state begins the transaction whose bytes are its encoding (R22 (a),
R90). -/
theorem begins_encoding {i : Instr} {s : State} {bytes : List Byte} (hs : s.Ready)
    (hw : i.wf = true) (he : encode s.cfg i = some bytes) : ∃ x, x.out = bytes ∧ Begins i s x := by
  have wf := hs.2.2.2
  have lb : ∀ v : Word, lowBytes 3 v = txBytes v 3 := fun v => lowBytes_eq v (by omega)
  cases i <;> simp only [Instr.wf, Instr.dir?] at hw <;>
    simp only [encode, Instr.followers, Instr.regId, Instr.format, Option.map_some,
      Option.some.injEq, Instr.opcodeByte, Instr.sentWord, cmdPayloadBytes, statusBytes] at he
  case setParam id v =>
    cases hid : s.cfg.widthOf id with
    | none => simp [hid] at he
    | some w =>
      have hr := widthOf_range wf hid
      refine ⟨_, ?_, begins_pw hs (id := id) (v := v) rfl rfl hid
        (by simp [exec, execSetParam, whenIdle_ready hs])⟩
      simp only [hid, Option.map_some, Option.some.injEq] at he
      simp only [State.paramWrite]
      rw [← he, ← lowBytes_eq v (byteCount_range w hr.1 hr.2)]
      rfl
  case getParam id =>
    cases hid : s.cfg.widthOf id with
    | none => simp [hid] at he
    | some w =>
      refine ⟨_, ?_, begins_pr hs (id := id) (g := false) rfl rfl (by simp) hid
        (by simp [exec, execGetParam, whenIdle_ready hs])⟩
      simp only [hid, Option.map_some, Option.some.injEq] at he
      simp only [State.paramRead]
      rw [← he]
      rfl
  case runRaw dir v =>
    exact ⟨_, by simp only [State.plain]; rw [← he, lb], begins_p3 hs rfl (by
      simp only [exec, execRunRaw, whenIdle_ready hs, withDirection_legal hw, opcode_dir _ _ hw])⟩
  case run dir f =>
    exact ⟨_, by simp only [State.plain]; rw [← he, lb], begins_p3 hs rfl (by
      simp only [exec, execRun, execRunRaw, whenIdle_ready hs, withDirection_legal hw,
        opcode_dir _ _ hw])⟩
  case move dir v =>
    exact ⟨_, by simp only [State.plain]; rw [← he, lb], begins_p3 hs rfl (by
      simp only [exec, execMove, whenIdle_ready hs, withDirection_legal hw, opcode_dir _ _ hw])⟩
  case goTo v =>
    exact ⟨_, by simp only [State.plain]; rw [← he, lb], begins_p3 hs rfl (by
      simp only [exec, execGoTo, whenIdle_ready hs])⟩
  case goToDir dir v =>
    exact ⟨_, by simp only [State.plain]; rw [← he, lb], begins_p3 hs rfl (by
      simp only [exec, execGoToDir, whenIdle_ready hs, withDirection_legal hw, opcode_dir _ _ hw])⟩
  case goUntilRaw a dir v =>
    exact ⟨_, by simp only [State.plain]; rw [← he, lb], begins_p3 hs rfl (by
      simp only [exec, execGoUntilRaw, whenIdle_ready hs, withDirection_legal hw,
        opcode_act _ _ _ hw])⟩
  case goUntil a dir f =>
    exact ⟨_, by simp only [State.plain]; rw [← he, lb], begins_p3 hs rfl (by
      simp only [exec, execGoUntil, execGoUntilRaw, whenIdle_ready hs, withDirection_legal hw,
        opcode_act _ _ _ hw])⟩
  case stepClock dir =>
    exact ⟨_, by simp only [State.plain]; rw [← he], begins_z hs rfl (by
      simp only [exec, execStepClock, whenIdle_ready hs, withDirection_legal hw,
        opcode_dir _ _ hw])⟩
  case getStatus =>
    exact ⟨s.statusRead, by simp [State.statusRead, ← he, List.replicate], begins_status hs⟩
  case getPos =>
    obtain ⟨h1, h2⟩ := position_entry wf (id := s.cfg.absPos) (.inl rfl)
    refine ⟨_, ?_, begins_pr hs (id := s.cfg.absPos) (g := true) rfl rfl (by simp) h1
      (by simp [exec, execGetPos, readPosition, whenIdle_ready hs, h2])⟩
    simp only [h1, Option.map_some, Option.some.injEq] at he
    simp only [State.paramRead]
    rw [← he]
    rfl
  case getMark =>
    obtain ⟨h1, h2⟩ := position_entry wf (id := s.cfg.mark) (.inr rfl)
    refine ⟨_, ?_, begins_pr hs (id := s.cfg.mark) (g := true) rfl rfl (by simp) h1
      (by simp [exec, execGetMark, readPosition, whenIdle_ready hs, h2])⟩
    simp only [h1, Option.map_some, Option.some.injEq] at he
    simp only [State.paramRead]
    rw [← he]
    rfl
  case setPos v =>
    obtain ⟨h1, h2⟩ := position_entry wf (id := s.cfg.absPos) (.inl rfl)
    refine ⟨_, ?_, begins_pw hs (id := s.cfg.absPos) (v := v) rfl rfl h1
      (by simp [exec, execSetPos, whenIdle_ready hs])⟩
    simp only [h1, Option.map_some, Option.some.injEq] at he
    simp only [State.paramWrite]
    rw [← he]
    exact congrArg _ (lb v)
  case setMark v =>
    obtain ⟨h1, h2⟩ := position_entry wf (id := s.cfg.mark) (.inr rfl)
    refine ⟨_, ?_, begins_pw hs (id := s.cfg.mark) (v := v) rfl rfl h1
      (by simp [exec, execSetMark, whenIdle_ready hs])⟩
    simp only [h1, Option.map_some, Option.some.injEq] at he
    simp only [State.paramWrite]
    rw [← he]
    exact congrArg _ (lb v)
  case setElPos v =>
    obtain ⟨w, h1⟩ := elPos_entry wf
    have hr := widthOf_range wf h1
    refine ⟨_, ?_, begins_pw hs (id := s.cfg.elPos) (v := v) rfl rfl h1
      (by simp [exec, execSetElPos, whenIdle_ready hs])⟩
    simp only [h1, Option.map_some, Option.some.injEq] at he
    simp only [State.paramWrite]
    rw [← he, ← lowBytes_eq v (byteCount_range w hr.1 hr.2)]
    rfl
  all_goals
    exact ⟨_, by simp only [State.plain]; rw [← he], begins_z hs rfl (by
      simp only [exec, execGoHome, execGoMark, execResetPos, execResetDev, execSoftStop,
        execHardStop, execSoftHiZ, execHardHiZ, whenIdle_ready hs])⟩

/-- The three things an operation in a ready state can do: begin its transaction; deliver `InvalidRegister` with
no exchange made, where its identifier is not in the registry (R191); or be refused for its direction
(R87). -/
theorem exec_cases (i : Instr) {s : State} (hs : s.Ready) :
    (i.wf = true ∧ ∃ bytes x, encode s.cfg i = some bytes ∧ x.out = bytes ∧ Begins i s x) ∨
    (i.wf = true ∧ encode s.cfg i = none ∧ (i.format = .pw ∨ i.format = .pr) ∧
      ∃ id, i.regId s.cfg = some id ∧ exec i s = .next
        { s with replies := s.replies ++ [.error (.invalidRegister id)], undelivered := false }) ∨
    (i.wf = false ∧ ∃ dir, i.dir? = some dir ∧ exec i s = .refused (.directionBits dir)) := by
  by_cases hw : i.wf = true
  · cases he : encode s.cfg i with
    | some bytes =>
      obtain ⟨x, hx, hb⟩ := begins_encoding hs hw he
      exact .inl ⟨hw, bytes, x, rfl, hx, hb⟩
    | none =>
      refine .inr (.inl ⟨hw, rfl, ?_⟩)
      cases i <;>
        simp only [encode, Instr.followers, Instr.regId, Instr.format, Option.map_some,
          Option.map_eq_none_iff, reduceCtorEq] at he
      case setParam id v =>
        exact ⟨.inl rfl, id, rfl,
          by simp [exec, execSetParam, whenIdle_ready hs, writeParam, he, raise_ready hs]⟩
      case getParam id =>
        exact ⟨.inr rfl, id, rfl,
          by simp [exec, execGetParam, whenIdle_ready hs, readParam, he, raise_ready hs]⟩
      case getPos => simp [(position_entry hs.2.2.2 (.inl rfl)).1] at he
      case getMark => simp [(position_entry hs.2.2.2 (.inr rfl)).1] at he
      case setPos => simp [(position_entry hs.2.2.2 (.inl rfl)).1] at he
      case setMark => simp [(position_entry hs.2.2.2 (.inr rfl)).1] at he
      case setElPos => obtain ⟨w, h1⟩ := elPos_entry hs.2.2.2; simp [h1] at he
  · refine .inr (.inr ⟨by simpa using hw, ?_⟩)
    cases i <;> simp only [Instr.wf, Instr.dir?, not_true_eq_false, Bool.not_eq_true] at hw <;>
      simp [Instr.dir?, exec, execRunRaw, execRun, execMove, execGoToDir, execGoUntilRaw, execGoUntil,
        execStepClock, whenIdle_ready hs, withDirection_illegal hw]

/-- The two ways an operation in a ready state answers a next state. -/
theorem exec_next {i : Instr} {s t : State} (hs : s.Ready) (h : exec i s = .next t) :
    (i.wf = true ∧ ∃ bytes x, encode s.cfg i = some bytes ∧ x.out = bytes ∧ Begins i s x ∧
      (s.begun x).resume = .next t) ∨
    (encode s.cfg i = none ∧ (i.format = .pw ∨ i.format = .pr) ∧
      ∃ id, t =
        { s with replies := s.replies ++ [.error (.invalidRegister id)], undelivered := false }) := by
  rcases exec_cases i hs with ⟨hw, bytes, x, he, hx, hb⟩ | ⟨-, he, hf, id, -, e⟩ | ⟨-, dir, -, e⟩
  · exact .inl ⟨hw, bytes, x, he, hx, hb, by rw [← hb.exec_eq, h]⟩
  · exact .inr ⟨he, hf, id, Host.Outcome.next.inj (h.symm.trans e)⟩
  · rw [e] at h
    cases h

/-- An operation's transaction is determined by the configuration and the values of `WREG`, `SGN` and `IE` it
finds. -/
theorem Begins.unique {i : Instr} {s s' : State} {x x' : Transaction} (hb : Begins i s x)
    (hb' : Begins i s' x') (hout : x'.out = x.out) (hc : s'.cfg = s.cfg) (hw : s'.wreg = s.wreg)
    (hg : s'.sgn = s.sgn) (hi : s'.ie = s.ie) : x' = x := by
  have fmt : x'.fmt = x.fmt := by rw [hb.fmt, hb'.fmt]
  have rxn : x'.rxn = x.rxn := by rw [hb.rxnval, hb'.rxnval, hout]
  have wreg : x'.wreg = x.wreg := by
    by_cases hf : i.format = .pw ∨ i.format = .pr
    · obtain ⟨id, p1, p2⟩ := hb.width hf
      obtain ⟨id', q1, q2⟩ := hb'.width hf
      rw [hc, p1] at q1
      cases q1
      rw [hc, p2] at q2
      exact (Option.some.inj q2).symm
    · rw [not_or] at hf
      rw [hb.wfix hf.1 hf.2, hb'.wfix hf.1 hf.2, hw]
  have sgn : x'.sgn = x.sgn := by
    by_cases hf : i.format = .pr
    · rw [hb.path hf, hb'.path hf]
    · rw [hb.sfix hf, hb'.sfix hf, hg]
  have both : x'.ie = x.ie ∧ x'.ies = x.ies := by
    rcases hb.ie with ⟨a1, a2⟩ | ⟨a1, a2, ai, ac⟩ <;> rcases hb'.ie with ⟨c1, c2⟩ | ⟨c1, c2, ci, cc⟩
    · simp [a1, a2, c1, c2, hi]
    · have := hb.crit ci (hc ▸ cc)
      simp [a1] at this
    · have := hb'.crit ai (hc.symm ▸ ac)
      simp [c1] at this
    · simp [a1, a2, c1, c2, hi]
  cases x
  cases x'
  simp_all

end Sys2Proof.Machine
end

