-- ==== Sys2Proof/Laws/PerInstr.lean ====
section
/-! SUPPORT. A statement about every operation as syntax, with one lemma per constructor: its request
record (30_encoding.md R95) has one of the 24 numbers, and its direction field is the operation's
direction operand, 0 where it has none. -/

namespace Sys2Proof.Laws.OperationNumber

/-- The number of an operation's request is below 24, and its `dir` field carries the direction operand. -/
def Statement (i : Instr) : Prop :=
  (encodeRequest i).op < 24 ∧ (encodeRequest i).dir = i.dir?.getD 0

theorem setParam (id : Byte) (value : Word) : Statement (.setParam id value) := ⟨by simp [encodeRequest], rfl⟩

theorem getParam (id : Byte) : Statement (.getParam id) := ⟨by simp [encodeRequest], rfl⟩

theorem runRaw (dir : Byte) (speed : Word) : Statement (.runRaw dir speed) := ⟨by simp [encodeRequest], rfl⟩

theorem run (dir : Byte) (stepsPerSec : FValue) : Statement (.run dir stepsPerSec) := ⟨by simp [encodeRequest], rfl⟩

theorem move (dir : Byte) (steps : Word) : Statement (.move dir steps) := ⟨by simp [encodeRequest], rfl⟩

theorem goTo (pos : Word) : Statement (.goTo pos) := ⟨by simp [encodeRequest], rfl⟩

theorem goToDir (dir : Byte) (pos : Word) : Statement (.goToDir dir pos) := ⟨by simp [encodeRequest], rfl⟩

theorem goUntilRaw (action dir : Byte) (speed : Word) : Statement (.goUntilRaw action dir speed) :=
  ⟨by simp [encodeRequest], rfl⟩

theorem goUntil (action dir : Byte) (stepsPerSec : FValue) :
    Statement (.goUntil action dir stepsPerSec) := ⟨by simp [encodeRequest], rfl⟩

theorem goHome : Statement .goHome := ⟨by simp [encodeRequest], rfl⟩

theorem goMark : Statement .goMark := ⟨by simp [encodeRequest], rfl⟩

theorem resetPos : Statement .resetPos := ⟨by simp [encodeRequest], rfl⟩

theorem resetDev : Statement .resetDev := ⟨by simp [encodeRequest], rfl⟩

theorem softStop : Statement .softStop := ⟨by simp [encodeRequest], rfl⟩

theorem hardStop : Statement .hardStop := ⟨by simp [encodeRequest], rfl⟩

theorem softHiZ : Statement .softHiZ := ⟨by simp [encodeRequest], rfl⟩

theorem hardHiZ : Statement .hardHiZ := ⟨by simp [encodeRequest], rfl⟩

theorem stepClock (dir : Byte) : Statement (.stepClock dir) := ⟨by simp [encodeRequest], rfl⟩

theorem getStatus : Statement .getStatus := ⟨by simp [encodeRequest], rfl⟩

theorem getPos : Statement .getPos := ⟨by simp [encodeRequest], rfl⟩

theorem getMark : Statement .getMark := ⟨by simp [encodeRequest], rfl⟩

theorem setPos (value : Word) : Statement (.setPos value) := ⟨by simp [encodeRequest], rfl⟩

theorem setMark (value : Word) : Statement (.setMark value) := ⟨by simp [encodeRequest], rfl⟩

theorem setElPos (value : Word) : Statement (.setElPos value) := ⟨by simp [encodeRequest], rfl⟩

end Sys2Proof.Laws.OperationNumber
end

