-- ==== Sys2Proof/Tests/Slice0.lean ====
section
/-! SUPPORT. The model's own tests. Expected results come from the tables of 95_test_vectors.md (V1 to V9)
and the bit patterns of 30_encoding.md R90, never from the model. -/

namespace Sys2Proof.Tests

open Sys2Proof.Machine

/-! ## Helpers -/

/-- The machine after reset, with a script of the outside world. -/
def scripted (ins : List Input) : State := { State.reset with inputs := ins }

/-- The machine after reset, with a transport that answers these bytes. -/
def heard (rs : List Byte) : State := scripted (answers rs [])

/-- The bytes on the bus and the outcomes delivered. -/
def seen (o : Result) : Option (List Byte × List Reply) :=
  match o with
  | .next t => some (t.trace.map (·.out), t.replies)
  | .fault _ => none
  | .refused _ => none

/-- What decoding bytes gives, with the default configuration. -/
def read (bytes : List Byte) : Option Instr :=
  match decode defaultCfg bytes with
  | .ok (i, []) => some i
  | .ok (_, _ :: _) => none
  | .error _ => none

/-! ## Well-formedness: the one check refuses a term of each operation that has a direction -/

theorem test_wf_runRaw : (Instr.runRaw 2 5).wf = false := by decide

theorem test_wf_run : (Instr.run 0x80 5).wf = false := by decide

theorem test_wf_move : (Instr.move 3 5).wf = false := by decide

theorem test_wf_goToDir : (Instr.goToDir 0xFE 5).wf = false := by decide

theorem test_wf_goUntilRaw : (Instr.goUntilRaw 1 2 5).wf = false := by decide

theorem test_wf_goUntil : (Instr.goUntil 1 0xFF 5).wf = false := by decide

theorem test_wf_stepClock : (Instr.stepClock 3).wf = false := by decide

theorem test_wf_accepts : (Instr.move 1 5).wf = true ∧ (Instr.goTo 5).wf = true := by decide

/-! ## Decoding: one transaction of each operation, the opcode byte from R90's bit pattern -/

theorem test_decode_setParam : read [0b00000101, 0x0A, 0xBC] = some (.setParam 0x05 0x0ABC) := by decide

theorem test_decode_getParam : read [0b00111001, 0x00, 0x00] = some (.getParam 0x19) := by decide

theorem test_decode_runRaw : read [0b01010001, 0x01, 0x23, 0x45] = some (.runRaw 1 0x012345) := by decide

theorem test_decode_move : read [0b01000000, 0x3F, 0xFF, 0xFF] = some (.move 0 0x3FFFFF) := by decide

theorem test_decode_goTo : read [0b01100000, 0xE0, 0x00, 0x00] = some (.goTo 0xFFE00000) := by decide

theorem test_decode_goToDir : read [0b01101001, 0x00, 0x03, 0xE8] = some (.goToDir 1 1000) := by decide

theorem test_decode_goUntilRaw : read [0b10001010, 0x10, 0x00, 0x00] = some (.goUntilRaw 1 0 0x100000) := by
  decide

theorem test_decode_goHome : read [0b01110000] = some .goHome := by decide

theorem test_decode_goMark : read [0b01111000] = some .goMark := by decide

theorem test_decode_resetPos : read [0b11011000] = some .resetPos := by decide

theorem test_decode_resetDev : read [0b11000000] = some .resetDev := by decide

theorem test_decode_softStop : read [0b10110000] = some .softStop := by decide

theorem test_decode_hardStop : read [0b10111000] = some .hardStop := by decide

theorem test_decode_softHiZ : read [0b10100000] = some .softHiZ := by decide

theorem test_decode_hardHiZ : read [0b10101000] = some .hardHiZ := by decide

theorem test_decode_stepClock : read [0b01011000] = some (.stepClock 0) := by decide

theorem test_decode_getStatus : read [0b11010000, 0x00, 0x00] = some .getStatus := by decide

theorem test_decode_getPos : read [0b00100001, 0x00, 0x00, 0x00] = some .getPos := by decide

theorem test_decode_getMark : read [0b00100011, 0x00, 0x00, 0x00] = some .getMark := by decide

theorem test_decode_setPos : read [0b00000001, 0xFF, 0xFF, 0xFF] = some (.setPos 0xFFFFFF) := by decide

theorem test_decode_setMark : read [0b00000011, 0x00, 0x00, 0x05] = some (.setMark 5) := by decide

theorem test_decode_setElPos : read [0b00000010, 0x01, 0x55] = some (.setElPos 0x155) := by decide

/-- What the decoder refuses, each by its name (R91, R92). -/
theorem test_decode_refuses :
    decode defaultCfg [] = .error .empty ∧
    decode defaultCfg [0xFF] = .error (.unknownOpcode 0xFF) ∧
    decode defaultCfg [0x1A, 0x05] = .error (.unregistered 0x1A) ∧
    decode defaultCfg [0xD0, 0x00] = .error .truncated ∧
    decode defaultCfg [0xD0, 0x00, 0x01] = .error .notDummy ∧
    decode defaultCfg [0x51, 0x10, 0x00, 0x00] = .error (.overMaximum 0x100000) := by
  refine ⟨?_, ?_, ?_, ?_, ?_, ?_⟩ <;> rfl

/-- The request records of `run` and `goUntil`, which have no opcode byte of their own (R94, R95). -/
theorem test_request_run :
    decodeRequest ⟨3, 0, 0, 1, 0, 0x4059000000000000⟩ = .ok (.run 1 0x4059000000000000) := rfl

theorem test_request_goUntil :
    decodeRequest ⟨8, 0, 1, 0, 0, 0x4059000000000000⟩ = .ok (.goUntil 1 0 0x4059000000000000) := rfl

/-! ## Packing (V1 to V4) -/

theorem test_txBytes : txBytes 0x12345678 3 = [0x34, 0x56, 0x78] ∧ txBytes 0x12345678 2 = [0x56, 0x78] := by
  decide

theorem test_rxAssemble : rxAssemble [0x12, 0x34, 0x56] = 0x00123456 ∧ rxAssemble [0xAB, 0xCD] = 0xABCD := by
  decide

theorem test_mask : mask 0x00FFFFFF 17 = 0x1FFFF ∧ mask 0xF7 4 = 0x7 ∧ mask 0xFFFF 9 = 0x1FF := by decide

theorem test_signExt22 : signExt22 0x200000 = 0xFFE00000 ∧ signExt22 0x1FFFFF = 0x1FFFFF := by decide

/-! ## One step of each operation (V5 to V9) -/

theorem test_setParam_spare_bits :
    seen (exec (.setParam 0x05 0x12FABC) (heard [7, 8, 9])) = some ([0x05, 0xFA, 0xBC], [.ok]) := by decide

theorem test_setParam_unknown :
    seen (exec (.setParam 0x1A 5) (heard [])) = some ([], [.error (.invalidRegister 0x1A)]) := by decide

theorem test_getParam_masks :
    seen (exec (.getParam 0x08) (heard [7, 0xFF, 0xFF])) =
      some ([0x28, 0x00, 0x00], [.value 0x1FFF]) := by decide

theorem test_getParam_unsigned :
    seen (exec (.getParam 0x01) (heard [7, 0x3F, 0xFF, 0xFF])) =
      some ([0x21, 0x00, 0x00, 0x00], [.value 0x003FFFFF]) := by decide

theorem test_runRaw_clamps_unsigned :
    seen (exec (.runRaw 1 0xFFFFFFFF) (heard [0, 0, 0, 0])) =
      some ([0x51, 0x0F, 0xFF, 0xFF], [.ok]) := by decide

theorem test_runRaw_direction :
    exec (.runRaw 0x02 5) (heard [0, 0, 0, 0]) = .refused (.directionBits 0x02) := rfl

theorem test_run_sends_conversion (f : FValue) (h : Config.speedConv f = 0x0029F1) :
    seen (exec (.run 0 f) (heard [0, 0, 0, 0])) = some ([0x50, 0x00, 0x29, 0xF1], [.ok]) := by
  simp only [exec, execRun, h]
  decide

theorem test_run_clamps_after_conversion (f : FValue) (h : Config.speedConv f = 0x200000) :
    seen (exec (.run 1 f) (heard [0, 0, 0, 0])) = some ([0x51, 0x0F, 0xFF, 0xFF], [.ok]) := by
  simp only [exec, execRun, h]
  decide

theorem test_move_at_maximum :
    seen (exec (.move 0 0x3FFFFF) (heard [0, 0, 0, 0])) = some ([0x40, 0x3F, 0xFF, 0xFF], [.ok]) := by
  decide

theorem test_move_clamps :
    seen (exec (.move 1 0x80000000) (heard [0, 0, 0, 0])) = some ([0x41, 0x3F, 0xFF, 0xFF], [.ok]) := by
  decide

theorem test_goTo_clamps :
    seen (exec (.goTo 0x400000) (heard [0, 0, 0, 0])) = some ([0x60, 0x3F, 0xFF, 0xFF], [.ok]) := by decide

theorem test_goTo_negative :
    seen (exec (.goTo 0xFFFFFFFF) (heard [0, 0, 0, 0])) = some ([0x60, 0xFF, 0xFF, 0xFF], [.ok]) := by
  decide

theorem test_goToDir_forward :
    seen (exec (.goToDir 1 1000) (heard [0, 0, 0, 0])) = some ([0x69, 0x00, 0x03, 0xE8], [.ok]) := by decide

theorem test_goToDir_clamps :
    seen (exec (.goToDir 0 0x400000) (heard [0, 0, 0, 0])) = some ([0x68, 0x3F, 0xFF, 0xFF], [.ok]) := by
  decide

theorem test_goUntilRaw_action :
    seen (exec (.goUntilRaw 0xFF 1 0x400000) (heard [0, 0, 0, 0])) =
      some ([0x8B, 0x3F, 0xFF, 0xFF], [.ok]) := by decide

theorem test_goUntilRaw_22_bits :
    seen (exec (.goUntilRaw 1 0 0x100000) (heard [0, 0, 0, 0])) =
      some ([0x8A, 0x10, 0x00, 0x00], [.ok]) := by decide

theorem test_goUntil_sends_conversion (f : FValue) (h : Config.speedConv f = 0x001A36) :
    seen (exec (.goUntil 1 1 f) (heard [0, 0, 0, 0])) = some ([0x8B, 0x00, 0x1A, 0x36], [.ok]) := by
  simp only [exec, execGoUntil, h]
  decide

theorem test_goHome : seen (exec .goHome (heard [9])) = some ([0x70], [.ok]) := by decide

theorem test_goMark : seen (exec .goMark (heard [9])) = some ([0x78], [.ok]) := by decide

theorem test_resetPos : seen (exec .resetPos (heard [9])) = some ([0xD8], [.ok]) := by decide

theorem test_resetDev : seen (exec .resetDev (heard [9])) = some ([0xC0], [.ok]) := by decide

theorem test_softStop : seen (exec .softStop (heard [9])) = some ([0xB0], [.ok]) := by decide

theorem test_hardStop : seen (exec .hardStop (heard [9])) = some ([0xB8], [.ok]) := by decide

theorem test_hardStop_fails :
    exec .hardStop (scripted [.answer .fail]) =
      .next { State.reset with trace := [⟨0xB8, none⟩], replies := [.error .transportFailure] } := rfl

theorem test_softHiZ : seen (exec .softHiZ (heard [9])) = some ([0xA0], [.ok]) := by decide

theorem test_hardHiZ : seen (exec .hardHiZ (heard [9])) = some ([0xA8], [.ok]) := by decide

theorem test_stepClock : seen (exec (.stepClock 1) (heard [9])) = some ([0x59], [.ok]) := by decide

theorem test_stepClock_direction :
    exec (.stepClock 3) (heard [9]) = .refused (.directionBits 3) := rfl

theorem test_getStatus_high_byte_first :
    seen (exec .getStatus (heard [0xAA, 0x12, 0x34])) =
      some ([0xD0, 0x00, 0x00], [.value 0x1234]) := by decide

/-- V8, failure at exchange 2: no partial value, `IE` as it was. -/
theorem test_getStatus_fails :
    seen (exec .getStatus (scripted (answers [1, 0x7E] [.answer .fail]))) =
      some ([0xD0, 0x00, 0x00], [.error .transportFailure]) := by decide

theorem test_getPos_lowest :
    seen (exec .getPos (heard [1, 0x20, 0x00, 0x00])) =
      some ([0x21, 0x00, 0x00, 0x00], [.value 0xFFE00000]) := by decide

theorem test_getPos_spare_bits :
    seen (exec .getPos (heard [1, 0xC0, 0x00, 0x01])) =
      some ([0x21, 0x00, 0x00, 0x00], [.value 0x00000001]) := by decide

theorem test_getMark_positive :
    seen (exec .getMark (heard [1, 0x00, 0x10, 0x00])) =
      some ([0x23, 0x00, 0x00, 0x00], [.value 0x00001000]) := by decide

theorem test_getMark_negative :
    seen (exec .getMark (heard [1, 0x20, 0x00, 0x01])) =
      some ([0x23, 0x00, 0x00, 0x00], [.value 0xFFE00001]) := by decide

theorem test_setPos_minus_one :
    seen (exec (.setPos 0xFFFFFFFF) (heard [0, 0, 0, 0])) = some ([0x01, 0xFF, 0xFF, 0xFF], [.ok]) := by
  decide

theorem test_setPos_not_clamped :
    seen (exec (.setPos 0x400000) (heard [0, 0, 0, 0])) = some ([0x01, 0x40, 0x00, 0x00], [.ok]) := by
  decide

theorem test_setMark :
    seen (exec (.setMark 0xFFFFFFFE) (heard [0, 0, 0, 0])) = some ([0x03, 0xFF, 0xFF, 0xFE], [.ok]) := by
  decide

theorem test_setElPos :
    seen (exec (.setElPos 0x155) (heard [0, 0, 0])) = some ([0x02, 0x01, 0x55], [.ok]) := by decide

/-! ## Running an opcode-table word -/

/-- The table's byte 10111000 is hardStop, and the next step after placing it runs it. -/
theorem test_fetch_hardStop :
    decodeTableWord 8 0b10111000 = some .hardStop ∧
    seen (step ((heard [9]).withFetchWord 8 0b10111000)) = some ([0xB8], [.ok]) := by decide

theorem test_fetch_unknown :
    step (State.reset.withFetchWord 8 0xFF) = .refused (.operationNumber 24) := rfl

/-! ## Witnesses: for each obligation with hypotheses, data that meet all of them together -/

theorem scripted_ready (ins : List Input) : (scripted ins).Ready := ⟨rfl, rfl, rfl, (by decide : defaultCfg.wf = true)⟩

/-- A block in mid-operation: the last byte of a three-byte read still to be sent. -/
def underway (ins : List Input) : State :=
  { scripted ins with
    phase := .busy, txq := [0x00], rxn := 2, acc := 0x7E, fmt := .pr, undelivered := true }

/-- A host that presents one request. -/
def presented (r : Request) : State := { State.reset with host := [.request r] }

theorem witness_StepRunsThePresentedOperation :
    (presented ⟨13, 0, 0, 0, 0, 0⟩).phase = .idle ∧
    (presented ⟨13, 0, 0, 0, 0, 0⟩).host = .request ⟨13, 0, 0, 0, 0, 0⟩ :: [] ∧
    decodeRequest ⟨13, 0, 0, 0, 0, 0⟩ = .ok .softStop := ⟨rfl, rfl, rfl⟩

/-- The last byte of a read that was preempted, with each thing the script can hold next; and nothing left to
send. -/
theorem witness_BusyStepMakesTheNextExchange :
    (∀ x ∈ [Input.answer (.byte 3), .answer .fail, .answer .hang, .interrupt, .reset, .intrusion .request],
      (underway [x]).phase = .busy ∧ (underway [x]).txq = 0x00 :: [] ∧ (underway [x]).inputs = x :: []) ∧
    (underway []).ie = true ∧ ({ underway [.interrupt] with ie := false } : State).ie = false ∧
    ({ underway [] with txq := [] } : State).phase = .busy ∧
    ({ underway [] with txq := [] } : State).txq = [] := ⟨fun _ _ => ⟨rfl, rfl, rfl⟩, rfl, rfl, rfl, rfl⟩

theorem witness_RequestRecordsDecodeBack :
    (presented ⟨24, 0, 0, 0, 0, 0⟩).phase = .idle ∧
    (presented ⟨24, 0, 0, 0, 0, 0⟩).host = .request ⟨24, 0, 0, 0, 0, 0⟩ :: [] ∧
    24 ≤ (⟨24, 0, 0, 0, 0, 0⟩ : Request).op := ⟨rfl, rfl, le_refl _⟩

/-- The largest step count a byte stream carries, and the two ends of the positions. -/
theorem witness_TransactionsDecodeBack :
    (Instr.move 1 0x3FFFFF).busExact defaultCfg = true ∧
    (Instr.goTo 0x3FFFFF).busExact defaultCfg = true ∧
    (Instr.goTo 0xFF400000).busExact defaultCfg = true ∧
    (Instr.setParam 0x05 0xFFFF).busExact defaultCfg = true := by decide

theorem witness_DecodedTransactionsEncodeBack :
    decode defaultCfg [0x60, 0x40, 0x00, 0x00, 0xB8] = .ok (.goTo 0xFF400000, [0xB8]) ∧
    decode defaultCfg [0x60, 0x3F, 0xFF, 0xFF] = .ok (.goTo 0x3FFFFF, []) := ⟨rfl, rfl⟩

theorem witness_OperationsSendTheirEncoding :
    (heard [1, 2, 3, 4]).Ready ∧ (Instr.move 1 5).wf = true ∧
    encode (heard [1, 2, 3, 4]).cfg (.move 1 5) = some [0x41, 0x00, 0x00, 0x05] ∧
    [1, 2, 3, 4].length = [0x41, 0x00, 0x00, 0x05].length ∧
    (heard [1, 2, 3, 4]).inputs = answers [1, 2, 3, 4] [] :=
  ⟨scripted_ready _, by decide, rfl, rfl, rfl⟩

/-- The widths at which `ByteCount` changes (V1). -/
theorem witness_ByteCountIsTheCeiling :
    (1 ≤ 1 ∧ 1 ≤ 22 ∧ 8 ≤ 8 ∧ 9 ≤ 9 ∧ 9 ≤ 16 ∧ 17 ≤ 17 ∧ 22 ≤ 22) ∧
    [1, 8, 9, 16, 17, 22].map byteCount = [1, 1, 2, 2, 3, 3] := by decide

theorem witness_TxBytesListsLowBytesHighFirst :
    1 ≤ 3 ∧ 3 ≤ 3 ∧ txBytes 0xFFE00000 3 = [0xE0, 0x00, 0x00] := by decide

theorem witness_RxAssembleIsBigEndian :
    ([0x12, 0x34, 0x56] : List Byte).length ≤ 3 ∧ bigEndian [0x12, 0x34, 0x56] = 0x123456 := by decide

theorem witness_WidthComesFromTheRegistry :
    defaultCfg.wf = true ∧ (⟨0x19, 16, false⟩ : RegEntry) ∈ defaultCfg.registry ∧
    ∀ e ∈ defaultCfg.registry, e.id ≠ 0x1A := by decide

theorem witness_OpcodeByteHasActAndDir :
    (0 : Byte).extractLsb' 1 7 = 0 ∧ (1 : Byte).extractLsb' 1 7 = 0 ∧
    opcode 0x82 (actBit 0xFF) (dirBit 1) = 0x8B := by decide

theorem witness_MaskAndClamps :
    (1 ≤ 22 ∧ 22 ≤ 22) ∧ 0 ≤ (0x400000 : Word).toInt ∧ 0 ≤ (0x3FFFFF : Word).toInt ∧
    ¬ (0 : Int) ≤ (0xFFFFFFFF : Word).toInt := by decide

theorem witness_ParameterRoundTrip :
    (1 ≤ 12 ∧ 12 ≤ 22 ∧ (0xFFF : Word).toNat < 2 ^ 12) ∧
    -2 ^ 21 ≤ (0xFFE00000 : Word).toInt ∧ (0x001FFFFF : Word).toInt < 2 ^ 21 := by decide

theorem witness_SignExtensionFromBit21 :
    (0x3FFFFF : Word).toNat < 2 ^ 22 ∧ (0x200000 : Word).getLsbD 21 = true ∧
    (0x1FFFFF : Word).getLsbD 21 = false := by decide

theorem witness_SetParamWritesTheParameter :
    (heard [0, 0, 0]).Ready ∧ (heard [0, 0, 0]).cfg.widthOf 0x05 = some 12 ∧
    (heard [0, 0, 0]).cfg.widthOf 0x1A = none := ⟨scripted_ready _, by decide, by decide⟩

theorem witness_GetParamReadsTheParameter :
    (heard [0, 1, 2]).Ready ∧ (heard [0, 1, 2]).cfg.widthOf 0x18 = some 16 ∧
    (heard [0, 1, 2]).cfg.widthOf 0x00 = none := ⟨scripted_ready _, by decide, by decide⟩

/-- What `Performs` asks of its scripts, for a transaction of four bytes: all answered, and a failure at the
first and at the last exchange. -/
theorem witness_Performs :
    (heard [1, 2, 3, 4]).inputs = answers [1, 2, 3, 4] [] ∧
    (scripted [.answer .fail]).inputs = answers [] (.answer .fail :: []) ∧
    (scripted (answers [1, 2, 3] [.answer .fail])).inputs = answers [1, 2, 3] (.answer .fail :: []) ∧
    [1, 2, 3].length < (State.reset.plain .p3 [0x60, 0, 0, 0]).out.length :=
  ⟨rfl, rfl, rfl, by decide⟩


theorem witness_RunRawSendsTheClampedSpeed :
    (heard [0, 0, 0, 0]).Ready ∧ (1 : Byte).extractLsb' 1 7 = 0 ∧ (2 : Byte).extractLsb' 1 7 ≠ 0 :=
  ⟨scripted_ready _, by decide, by decide⟩

theorem witness_RunSendsTheClampedConversion :
    (heard [0, 0, 0, 0]).Ready ∧ Config.speedConv 0 = Config.speedConv 0 ∧
    (1 : Byte).extractLsb' 1 7 = 0 ∧ (2 : Byte).extractLsb' 1 7 ≠ 0 :=
  ⟨scripted_ready _, rfl, by decide, by decide⟩

theorem witness_MoveSendsTheClampedStepCount :
    (heard [0, 0, 0, 0]).Ready ∧ (0 : Byte).extractLsb' 1 7 = 0 ∧ (0x80 : Byte).extractLsb' 1 7 ≠ 0 :=
  ⟨scripted_ready _, by decide, by decide⟩

theorem witness_GoToSendsTheSignedClampedPosition : (heard [0, 0, 0, 0]).Ready := scripted_ready _

theorem witness_GoToDirSendsTheSignedClampedPosition :
    (heard [0, 0, 0, 0]).Ready ∧ (1 : Byte).extractLsb' 1 7 = 0 ∧ (2 : Byte).extractLsb' 1 7 ≠ 0 :=
  ⟨scripted_ready _, by decide, by decide⟩

theorem witness_GoUntilRawSendsTheClampedSpeed :
    (heard [0, 0, 0, 0]).Ready ∧ (1 : Byte).extractLsb' 1 7 = 0 ∧ (2 : Byte).extractLsb' 1 7 ≠ 0 :=
  ⟨scripted_ready _, by decide, by decide⟩

theorem witness_GoUntilSendsTheClampedConversion :
    (heard [0, 0, 0, 0]).Ready ∧ Config.speedConv 0 = Config.speedConv 0 ∧
    (1 : Byte).extractLsb' 1 7 = 0 ∧ (2 : Byte).extractLsb' 1 7 ≠ 0 :=
  ⟨scripted_ready _, rfl, by decide, by decide⟩

theorem witness_MotionPayloadNeverExceedsTheMaximum :
    (Instr.goTo 0x400000).format = .p3 ∧ 0 ≤ (0x400000 : Word).toInt ∧
    encode defaultCfg (.goTo 0x400000) = some (0x60 :: [0x3F, 0xFF, 0xFF]) := by decide

theorem witness_ZeroPayloadCommandsSendOneByte : (heard [0]).Ready := scripted_ready _

theorem witness_StepClockSendsOneByteWithTheDirection :
    (heard [0]).Ready ∧ (1 : Byte).extractLsb' 1 7 = 0 ∧ (2 : Byte).extractLsb' 1 7 ≠ 0 :=
  ⟨scripted_ready _, by decide, by decide⟩

theorem witness_GetStatusReadsTwoBytes :
    (heard [0, 0x7E, 0x03]).Ready ∧
    ((heard [0, 0x7E, 0x03]).ie = true → (heard [0, 0x7E, 0x03]).irqWaiting = 0) :=
  ⟨scripted_ready _, fun _ => rfl⟩

/-- A status read that ends, with two interrupts in its middle, and one that hangs; with `CRITICAL_STATUS`
false and `IE` at 0 too; and the scripts without their interrupts, answered and refused. -/
theorem witness_StatusReadIsNeverPreempted :
    (scripted (answers [1] (interrupts 2 (answers [2, 3] [])))).Ready ∧
    (scripted (answers [1] (interrupts 2 (answers [2, 3] [])))).cfg.criticalStatus = true ∧
    (scripted (answers [1] (interrupts 2 (answers [2, 3] [])))).NoReset ∧
    (∃ t, exec .getStatus (scripted (answers [1] (interrupts 2 (answers [2, 3] [])))) = .next t ∧
      t.phase = .idle) ∧
    (∃ t, exec .getStatus (scripted [.answer .hang]) = .next t ∧ t.phase = .busy) ∧
    (scripted (answers [1] (interrupts 2 (answers [2, 3] [])))).Masked .getStatus ∧
    (scripted (answers [1] (interrupts 2 (answers [2, 3] [])))).inputs =
      interrupts 0 (.answer (.byte 1) ::
        interrupts 2 (.answer (.byte 2) :: interrupts 0 (.answer (.byte 3) :: []))) ∧
    ({ State.reset with ie := false, cfg := { defaultCfg with criticalStatus := false } } : State).Masked
      .getStatus ∧
    ({ scripted (.interrupt :: answers [1] []) with ie := false } : State).Masked .goMark ∧
    (∃ t, exec .goMark { scripted (quiet (.interrupt :: answers [1] [])) with ie := false } = .next t) ∧
    exec .goMark { scripted (quiet [.interrupt, .intrusion .request]) with ie := false } =
      .refused .requestWhileBusy :=
  ⟨scripted_ready _, rfl, by simp [State.NoReset, scripted, answers, interrupts], ⟨_, rfl, rfl⟩,
    ⟨_, rfl, rfl⟩, .inr ⟨rfl, rfl⟩, rfl, .inl rfl, .inl rfl, ⟨_, rfl⟩, rfl⟩

theorem witness_HangInStatusReadLeavesInterruptsOff :
    (scripted (answers [1, 2] [.answer .hang])).Ready ∧
    (scripted (answers [1, 2] [.answer .hang])).cfg.criticalStatus = true ∧ [1, 2].length < 3 ∧
    (scripted (answers [1, 2] [.answer .hang])).inputs = answers [1, 2] (.answer .hang :: []) :=
  ⟨scripted_ready _, rfl, by decide, rfl⟩

theorem witness_TwoStatusReadsAreDifferentStreams :
    (heard [0, 0x7E, 0x03]).Ready ∧
    (heard [0, 0x7E, 0x03]).cfg.widthOf (heard [0, 0x7E, 0x03]).cfg.status = some 16 ∧
    (heard [0, 0x7E, 0x03]).cfg.getStatusOp ≠
      (heard [0, 0x7E, 0x03]).cfg.getParamBase ||| (heard [0, 0x7E, 0x03]).cfg.status ∧
    (heard [0, 0x7E, 0x03]).inputs = answers [0, 0x7E, 0x03] [] :=
  ⟨scripted_ready _, by decide, by decide, rfl⟩

theorem witness_GetPosAndGetMarkReadSigned : (heard [0, 0x20, 0, 0]).Ready := scripted_ready _

theorem witness_SetPosAndSetMarkSendThreeBytes : (heard [0, 0, 0, 0]).Ready := scripted_ready _

theorem witness_SetElPosSendsTheRegistryWidth : (heard [0, 0, 0]).Ready := scripted_ready _

theorem witness_ResetPosIsNotSetPos :
    (heard [1, 2, 3, 4]).Ready ∧ (heard [1, 2, 3, 4]).inputs = answers [1, 2, 3, 4] [] :=
  ⟨scripted_ready _, rfl⟩

/-- The two ends of the range, and -1 answered whole and in its low 22 bits (S2). -/
theorem witness_PositionSignRoundTrip :
    -2 ^ 21 ≤ (0xFFE00000 : Word).toInt ∧ (0xFFFFFFFF : Word).toInt < 2 ^ 21 ∧
    (0x001FFFFF : Word).toInt < 2 ^ 21 ∧ (heard [1, 2, 3, 4]).Ready ∧
    (heard [1, 2, 3, 4]).inputs = answers [1, 2, 3, 4] [] ∧
    (heard [1, 0x3F, 0xFF, 0xFF]).Ready ∧ (0x3F : Byte) = 0xFF &&& 0x3F ∧
    (heard [1, 0x3F, 0xFF, 0xFF]).inputs = answers [1, 0x3F, 0xFF, 0xFF] [] :=
  ⟨by decide, by decide, by decide, scripted_ready _, rfl, scripted_ready _, by decide, rfl⟩

theorem witness_InvalidRegisterBeforeAnyExchange :
    (heard []).Ready ∧ (∀ e ∈ (heard []).cfg.registry, e.id ≠ 0x1A) ∧
    ∃ t, exec .getPos (heard [1, 2, 3, 4]) = .next t :=
  ⟨scripted_ready _, by decide, ⟨_, rfl⟩⟩

/-- A failure at the last exchange of getPos. -/
theorem witness_TransportFailureEndsTheOperation :
    (scripted (answers [1, 2, 3] [.answer .fail])).Ready ∧
    ((scripted (answers [1, 2, 3] [.answer .fail])).ie = true →
      (scripted (answers [1, 2, 3] [.answer .fail])).irqWaiting = 0) ∧
    Instr.getPos.wf = true ∧
    encode (scripted (answers [1, 2, 3] [.answer .fail])).cfg .getPos =
      some [0x21, 0x00, 0x00, 0x00] ∧
    ([0x21, 0x00, 0x00, 0x00] : List Byte)[[1, 2, 3].length]? = some 0x00 ∧
    (scripted (answers [1, 2, 3] [.answer .fail])).inputs = answers [1, 2, 3] (.answer .fail :: []) :=
  ⟨scripted_ready _, fun _ => rfl, rfl, rfl, rfl, rfl⟩

theorem witness_RaisingAnErrorEndsTheOperation :
    ({ underway [] with ie := false, ies := some true } : State).ies = some true ∧
    (underway []).ies = none := ⟨rfl, rfl⟩

theorem witness_HungBlockNeverMovesOn :
    (underway [.answer .hang]).Hung ∧ (scripted [.answer .hang]).Ready ∧ Instr.goHome.wf = true ∧
    encode (scripted [.answer .hang]).cfg .goHome = some [0x70] ∧
    ([] : List Byte).length < ([0x70] : List Byte).length ∧
    (scripted [.answer .hang]).inputs = answers [] (.answer .hang :: []) :=
  ⟨⟨rfl, by simp [underway], [], rfl⟩, scripted_ready _, rfl, rfl, by decide, rfl⟩

theorem witness_RequestWhileBusyIsRefused : (underway []).phase = .busy := rfl

theorem witness_IntrusionInMidTransactionIsRefused :
    (scripted (answers [1] [.intrusion .request])).Ready ∧ Instr.getStatus.wf = true ∧
    encode (scripted (answers [1] [.intrusion .request])).cfg .getStatus = some [0xD0, 0x00, 0x00] ∧
    [1].length < [0xD0, 0x00, 0x00].length ∧
    (scripted (answers [1] [.intrusion .request])).inputs = answers [1] (.intrusion .request :: []) :=
  ⟨scripted_ready _, rfl, rfl, by decide, rfl⟩

theorem witness_IllFormedConfigurationIsRefused :
    ({ State.reset with cfg := { defaultCfg with revBit := 1 } } : State).phase = .idle ∧
    ({ defaultCfg with revBit := 1 } : Cfg).wf = false := by decide

theorem witness_LegalOperationsAlwaysAnswer :
    (scripted [.interrupt, .answer .fail, .reset]).Ready ∧ (Instr.stepClock 1).wf = true ∧
    (scripted [.interrupt, .answer .fail, .reset]).Undisturbed :=
  ⟨scripted_ready _, by decide, by simp [State.Undisturbed, scripted]⟩

/-- One that ends and one that is left busy. -/
theorem witness_BytesGoOutInOrder :
    (heard [1]).Ready ∧ (heard [1]).NoReset ∧ encode (heard [1]).cfg .softHiZ = some [0xA0] ∧
    (∃ t, exec .softHiZ (heard [1]) = .next t ∧ t.phase = .idle) ∧
    ∃ t, exec .softHiZ (scripted [.answer .hang]) = .next t ∧ t.phase = .busy :=
  ⟨scripted_ready _, by simp [State.NoReset, heard, scripted, answers], rfl, ⟨_, rfl, rfl⟩,
    ⟨_, rfl, rfl⟩⟩

theorem witness_CommandsLeaveFlagsAndWidthsAlone :
    Instr.hardHiZ.format = .z ∧ (Instr.goTo 7).format = .p3 ∧ (heard [1, 2, 3, 4]).Ready ∧
    (heard [1, 2, 3, 4]).NoReset ∧ (∃ t, exec .hardHiZ (heard [1, 2, 3, 4]) = .next t) ∧
    ∃ t, exec (.goTo 7) (heard [1, 2, 3, 4]) = .next t :=
  ⟨rfl, rfl, scripted_ready _, by simp [State.NoReset, heard, scripted, answers], ⟨_, rfl⟩, ⟨_, rfl⟩⟩

theorem witness_ParameterAccessesLeaveFlagsAlone :
    (Instr.setElPos 7).format = .pw ∧ Instr.getMark.format = .pr ∧ (heard [1, 2, 3, 4]).Ready ∧
    (heard [1, 2, 3, 4]).NoReset ∧ (∃ t, exec (.setElPos 7) (heard [1, 2, 3, 4]) = .next t) ∧
    ∃ t, exec .getMark (heard [1, 2, 3, 4]) = .next t :=
  ⟨rfl, rfl, scripted_ready _, by simp [State.NoReset, heard, scripted, answers], ⟨_, rfl⟩, ⟨_, rfl⟩⟩

theorem witness_StatusReadLeavesWidthsAlone :
    (heard [1, 2, 3]).Ready ∧ (heard [1, 2, 3]).NoReset ∧
    (∃ t, exec .getStatus (heard [1, 2, 3]) = .next t) ∧
    ({ defaultCfg with criticalStatus := false } : Cfg).criticalStatus = false ∧
    ({ defaultCfg with criticalStatus := false } : Cfg).wf = true :=
  ⟨scripted_ready _, by simp [State.NoReset, heard, scripted, answers], ⟨_, rfl⟩, rfl, by decide⟩

theorem witness_NoInterruptIsTakenWhileDisabled :
    ({ scripted (.interrupt :: answers [1] []) with ie := false } : State).Ready ∧
    ({ scripted (.interrupt :: answers [1] []) with ie := false } : State).NoReset ∧
    ∃ t, exec .goMark { scripted (.interrupt :: answers [1] []) with ie := false } = .next t :=
  ⟨scripted_ready [], by simp [State.NoReset, scripted, answers], ⟨_, rfl⟩⟩

theorem witness_InterruptIsTakenBetweenExchanges :
    (scripted (answers [1] [.interrupt])).Ready ∧ (scripted (answers [1] [.interrupt])).ie = true ∧
    (Instr.goTo 7 = .getStatus → (scripted (answers [1] [.interrupt])).cfg.criticalStatus = false) ∧
    (Instr.goTo 7).wf = true ∧
    encode (scripted (answers [1] [.interrupt])).cfg (.goTo 7) = some [0x60, 0x00, 0x00, 0x07] ∧
    [1].length < [0x60, 0x00, 0x00, 0x07].length ∧
    (scripted (answers [1] [.interrupt])).inputs = answers [1] (.interrupt :: []) :=
  ⟨scripted_ready _, rfl, by simp, rfl, rfl, by decide, rfl⟩

theorem witness_HostWritesInterruptEnableWhenIdle :
    ({ State.reset with host := [.setIE false] } : State).phase = .idle ∧
    ({ State.reset with host := [.setIE false] } : State).host = .setIE false :: [] := ⟨rfl, rfl⟩

theorem witness_ResetInMidOperationCutsItShort :
    (scripted (answers [1] [.reset])).Ready ∧ Instr.getMark.wf = true ∧
    encode (scripted (answers [1] [.reset])).cfg .getMark = some [0x23, 0x00, 0x00, 0x00] ∧
    [1].length < [0x23, 0x00, 0x00, 0x00].length ∧
    (scripted (answers [1] [.reset])).inputs = answers [1] (.reset :: []) ∧
    ({ State.reset with host := [.reset] } : State).phase = .idle ∧
    ({ State.reset with host := [.reset] } : State).host = .reset :: [] ∧
    State.reset.phase = .idle ∧ State.reset.host = [] :=
  ⟨scripted_ready _, rfl, rfl, by decide, rfl, rfl, rfl, rfl, rfl⟩

/-- One with nothing queued, and one whose host still has a write of `IE` and a reset to make. -/
theorem witness_EndedOperationLeavesTheBlockReady :
    (heard [1]).Ready ∧ (heard [1]).NoReset ∧
    (∃ t, exec .resetDev (heard [1]) = .next t ∧ t.phase = .idle ∧ ∀ r, HostAction.request r ∉ t.host) ∧
    ({ heard [1] with host := [.setIE false, .reset] } : State).Ready ∧
    ∃ t, exec .resetDev { heard [1] with host := [.setIE false, .reset] } = .next t ∧ t.phase = .idle ∧
      t.host = [.setIE false, .reset] ∧ ∀ r, HostAction.request r ∉ t.host :=
  ⟨scripted_ready _, by simp [State.NoReset, heard, scripted, answers],
    ⟨_, rfl, rfl, fun _ => List.not_mem_nil⟩, scripted_ready [], ⟨_, rfl, rfl, rfl, fun _ => by
      change _ ∉ [HostAction.setIE false, .reset]; simp⟩⟩

/-- R233: a queued request keeps a run from being over, a queued write of `IE` or reset does not. -/
theorem test_final_bars_requests_only :
    ¬ (presented ⟨13, 0, 0, 0, 0, 0⟩).Final ∧
    ({ State.reset with host := [.setIE false, .reset] } : State).Final := by
  simp [State.Final, presented, State.reset]

theorem witness_ConfigurationNeverChanges :
    ∃ t, step ((heard [1]).withFetchWord 8 0xC0) = .next t := ⟨_, rfl⟩

/-- A state with the invariant, in the middle of a critical status read, whose step answers a next state. -/
theorem witness_EveryStepKeepsTheInvariant :
    ({ underway [.answer (.byte 3)] with fmt := .s2, ie := false, ies := some true, irqWaiting := 1 } :
      State).Inv ∧
    ∃ t, step { underway [.answer (.byte 3)] with
      fmt := .s2, ie := false, ies := some true, irqWaiting := 1 } = .next t :=
  ⟨by unfold State.Inv; decide, ⟨_, rfl⟩⟩

/-- Two states with different working registers, traces and outcomes. -/
theorem witness_NothingIsRememberedBetweenOperations :
    (heard [1, 2, 3]).Ready ∧
    ({ heard [1, 2, 3] with
      wreg := 9, acc := 5, trace := [⟨1, some 2⟩], replies := [.ok], ie := false } : State).Ready ∧
    (heard [1, 2, 3]).NoReset ∧ Input.interrupt ∉ (heard [1, 2, 3]).inputs ∧
    ∃ t, exec (.getParam 0x05) (heard [1, 2, 3]) = .next t :=
  ⟨scripted_ready _, scripted_ready [], by simp [State.NoReset, heard, scripted, answers],
    by simp [heard, scripted, answers], ⟨_, rfl⟩⟩

theorem witness_AnswersPastTheScriptAreFree :
    (underway []).phase = .busy ∧ (underway []).txq = 0x00 :: [] ∧ (underway []).inputs = [] :=
  ⟨rfl, rfl, rfl⟩

theorem witness_ResponseCodes :
    (Reply.error .transportFailure).response.err ≠ 0 ∧ Reply.ok.response.err = 0 := by decide

end Sys2Proof.Tests
end

section
/-! SUPPORT. What each step of the machine is, by the phase of the block; what `exec` checks before anything
else; and that no part of a step writes the configuration (00_scope.md R6, R65). -/

namespace Sys2Proof.Machine

/-! ## The step by the phase of the block (R22) -/

theorem step_busy {s : State} (h : s.phase = .busy) : step s = s.resume := by
  simp [step, h]

theorem step_idle {s : State} (h : s.phase = .idle) : step s = hostStep s := by
  simp [step, h]

/-- The ways an idle block answers a next state: it waits, `IE` is written, it is reset, or an operation
runs. -/
theorem hostStep_next {s t : State} (h : hostStep s = .next t) :
    t = s ∨ (∃ b rest, t = State.writeIE b { s with host := rest }) ∨
      (∃ rest, t = State.blockReset { s with host := rest }) ∨
      ∃ i rest, exec i { s with host := rest } = .next t := by
  unfold hostStep at h
  split at h
  · exact .inl (Host.Outcome.next.inj h).symm
  · exact .inr (.inl ⟨_, _, (Host.Outcome.next.inj h).symm⟩)
  · exact .inr (.inr (.inl ⟨_, (Host.Outcome.next.inj h).symm⟩))
  · split at h
    · exact .inr (.inr (.inr ⟨_, _, h⟩))
    · cases h

/-! ## Outcomes that keep the configuration -/

/-- Whatever state the outcome answers, its configuration is that of `s`. -/
def KeepsCfg (s : State) (o : Result) : Prop := ∀ t, o = .next t → t.cfg = s.cfg

theorem KeepsCfg.next {s t : State} (h : t.cfg = s.cfg) : KeepsCfg s (.next t) := by
  rintro _ ⟨⟩
  exact h

theorem KeepsCfg.refused (s : State) (r : Refusal) : KeepsCfg s (.refused r) := by
  rintro _ ⟨⟩

/-- A failed exchange writes no configuration. -/
@[simp] theorem State.exchangeFails_cfg (s : State) : s.exchangeFails.cfg = s.cfg := by
  cases h : s.txq <;> simp [State.exchangeFails, h]

theorem KeepsCfg.serve {s u : State} (hu : u.cfg = s.cfg) (ins : List Input) :
    KeepsCfg s (u.serve ins) := by
  intro t ht
  refine serve_induct (M := fun v => v.cfg = s.cfg) (Q := fun v => v.cfg = s.cfg)
    ?script ?draw ?byte ?wait ?done ?fail ?stuck ?taken ins u t ?cut hu ht
  case script => exact fun _ _ h => h
  case draw => exact fun _ h => h
  case byte => exact fun v r h _ => (v.exchanged_cfg r).trans h
  case wait => exact fun _ h _ => h
  case done => exact fun v h _ => v.complete_cfg.trans h
  case fail => exact fun v h _ => v.exchangeFails_cfg.trans h
  case stuck => exact fun _ h _ => h
  case taken => exact fun _ h _ _ => h
  case cut => exact fun _ _ h => h

theorem KeepsCfg.resume {s u : State} (hu : u.cfg = s.cfg) : KeepsCfg s u.resume :=
  .serve hu _

theorem KeepsCfg.whenIdle {s : State} {k : Result} (h : KeepsCfg s k) : KeepsCfg s (s.whenIdle k) := by
  unfold State.whenIdle
  split
  · exact .refused s _
  · split
    · exact h
    · exact .refused s _

theorem KeepsCfg.withDirection {s : State} {k : Result} (h : KeepsCfg s k) (dir : Byte) :
    KeepsCfg s (withDirection dir k) := by
  unfold Machine.withDirection
  split
  · exact h
  · exact .refused s _

theorem KeepsCfg.sendCommand0 (opc : Byte) (s : State) : KeepsCfg s (sendCommand0 opc s) := .resume rfl

theorem KeepsCfg.sendCommand3 (opc : Byte) (p : Word) (s : State) : KeepsCfg s (sendCommand3 opc p s) :=
  .resume rfl

theorem KeepsCfg.writeParam (id : Byte) (v : Word) (s : State) : KeepsCfg s (writeParam id v s) := by
  unfold Machine.writeParam
  split
  · exact .next (s.raise_cfg _)
  · exact .resume rfl

theorem KeepsCfg.readParam (id : Byte) (g : Bool) (s : State) : KeepsCfg s (readParam id g s) := by
  unfold Machine.readParam
  split
  · exact .next (s.raise_cfg _)
  · exact .resume rfl

/-! ## What `exec` checks before anything else -/

/-- Every operation first checks that the block is idle and the configuration well formed (R198 (1), R6);
what it then does writes no configuration. -/
theorem exec_whenIdle (i : Instr) (s : State) : ∃ k, exec i s = s.whenIdle k ∧ KeepsCfg s k := by
  cases i with
  | setParam | setPos | setMark | setElPos => exact ⟨_, rfl, .writeParam _ _ s⟩
  | getParam | getPos | getMark => exact ⟨_, rfl, .readParam _ _ s⟩
  | runRaw dir | run dir | move dir | goToDir dir | goUntilRaw _ dir | goUntil _ dir =>
    exact ⟨_, rfl, (KeepsCfg.sendCommand3 _ _ s).withDirection dir⟩
  | goTo => exact ⟨_, rfl, .sendCommand3 _ _ s⟩
  | stepClock dir => exact ⟨_, rfl, (KeepsCfg.sendCommand0 _ s).withDirection dir⟩
  | getStatus => exact ⟨_, rfl, .resume (by split <;> rfl)⟩
  | goHome | goMark | resetPos | resetDev | softStop | hardStop | softHiZ | hardHiZ =>
    exact ⟨_, rfl, .sendCommand0 _ s⟩

theorem exec_keepsCfg (i : Instr) (s : State) : KeepsCfg s (exec i s) := by
  obtain ⟨k, e, hk⟩ := exec_whenIdle i s
  exact e ▸ hk.whenIdle

/-- An idle block refuses every operation in a configuration that is not well formed (R6). -/
theorem whenIdle_illFormed {s : State} (hp : s.phase = .idle) (hc : s.cfg.wf = false) (k : Result) :
    s.whenIdle k = .refused .illFormedConfiguration := by
  simp [State.whenIdle, hp, hc]

/-- Settles O55: a busy block goes on with the sequencer, an idle one turns to the host, and neither writes
the configuration. -/
theorem configurationNeverChanges : Obligations.ConfigurationNeverChanges := by
  intro s t h
  cases hp : s.phase with
  | busy =>
    rw [step_busy hp] at h
    exact KeepsCfg.resume rfl t h
  | idle =>
    rw [step_idle hp] at h
    obtain rfl | ⟨b, rest, rfl⟩ | ⟨rest, rfl⟩ | ⟨i, rest, hi⟩ := hostStep_next h
    · rfl
    · rfl
    · rfl
    · exact exec_keepsCfg i { s with host := rest } t hi

/-- Settles O43: the check of the configuration stands before everything else an operation does. -/
theorem illFormedConfigurationIsRefused : Obligations.IllFormedConfigurationIsRefused := by
  intro i s hp hc
  obtain ⟨k, e, -⟩ := exec_whenIdle i s
  exact e.trans (whenIdle_illFormed hp hc k)

/-- Settles O44: the operation begins its transaction, which only an intrusion could refuse, or ends with
`InvalidRegister`; its direction is legal. -/
theorem legalOperationsAlwaysAnswer : Obligations.LegalOperationsAlwaysAnswer := by
  intro i s hs hw hu
  rcases exec_cases i hs with ⟨-, bytes, x, -, -, hb⟩ | ⟨-, -, -, id, -, e⟩ | ⟨hw', -⟩
  · rw [hb.exec_eq]
    exact serve_answers_next _ _ hu
  · exact ⟨_, e⟩
  · simp [hw] at hw'

end Sys2Proof.Machine
end

section
/-! SUPPORT. The exchange past the end of the script, by the free answer drawn (00_scope.md R10). -/

namespace Sys2Proof.Machine

theorem exchangeFree_byte {s : State} {r : Byte} (h : Config.freeAnswer s.draws = .byte r) (b : Byte)
    (q : List Byte) :
    State.exchangeFree (b :: q) s =
      State.exchangeFree q (State.exchanged r { s with draws := s.draws + 1 }) := by
  simp [State.exchangeFree, h]

theorem exchangeFree_fail {s : State} (h : Config.freeAnswer s.draws = .fail) (b : Byte) (q : List Byte) :
    State.exchangeFree (b :: q) s = State.exchangeFails { s with draws := s.draws + 1 } := by
  simp [State.exchangeFree, h]

theorem exchangeFree_hang {s : State} (h : Config.freeAnswer s.draws = .hang) (b : Byte) (q : List Byte) :
    State.exchangeFree (b :: q) s = s := by
  simp [State.exchangeFree, h]

/-- Past the end of the script the step of a busy block makes the free exchanges of its queue. -/
theorem step_pastScript {s : State} (hp : s.phase = .busy) (hin : s.inputs = []) :
    step s = .next (State.exchangeFree s.txq s) := by
  rw [step_busy hp, State.resume, hin, serve_nil]

/-- A free byte makes the exchange, and the step goes on from there. -/
theorem step_freeByte {s : State} {b r : Byte} {q : List Byte} (hp : s.phase = .busy) (hq : s.txq = b :: q)
    (hin : s.inputs = []) (ha : Config.freeAnswer s.draws = .byte r) :
    step s = step (State.exchanged r { s with draws := s.draws + 1 }) := by
  rw [step_pastScript hp hin, step_pastScript (by simp [hp]) (by simp [hin]), hq, exchangeFree_byte ha]
  simp [hq]

/-- Settles O59, by the free answer drawn. -/
theorem answersPastTheScriptAreFree : Obligations.AnswersPastTheScriptAreFree := by
  intro s b q hp hq hin
  have hq' : ({ s with draws := s.draws + 1 } : State).txq = b :: q := hq
  cases ha : Config.freeAnswer s.draws with
  | byte r => exact (step_freeByte hp hq hin ha).trans (congrArg step (State.exchanged_cons hq' r))
  | fail =>
    have hs := step_pastScript hp hin
    rwa [hq, exchangeFree_fail ha, State.exchangeFails_cons hq'] at hs
  | hang =>
    have hs := step_pastScript hp hin
    rwa [hq, exchangeFree_hang ha] at hs

end Sys2Proof.Machine
end

section
/-! SUPPORT. The invariant of the machine, taken apart by the phase of the block: what holds in both phases, what
else holds of an operation in progress and of a block at rest, and that each operation of the sequencer keeps
it. -/

namespace Sys2Proof.Machine

/-! ## The invariant by phase -/

/-- The clauses of the invariant that do not depend on the phase. -/
structure State.Bounded (s : State) : Prop where
  wf : s.cfg.wf = true
  rxn_le : s.rxn ≤ 3
  width : 1 ≤ s.wreg ∧ s.wreg ≤ 22
  queue : s.txq.length ≤ 4
  acc_lt : s.acc.toNat < 2 ^ (8 * (s.rxn - s.txq.length))
  noneWaits : s.ie = true → s.irqWaiting = 0

/-- The invariant while an operation is in progress. `TXQ` may be empty here: within a step it is, just before
completion (log 26). -/
structure State.Running (s : State) : Prop extends s.Bounded where
  busy : s.phase = .busy
  owed : s.undelivered = true
  saved : s.ies ≠ none → s.ie = false ∧ s.fmt = .s2 ∧ s.cfg.criticalStatus = true

/-- The invariant of an idle block. -/
structure State.Resting (s : State) : Prop extends s.Bounded where
  idle : s.phase = .idle
  empty : s.txq = []
  unsaved : s.ies = none

theorem inv_iff (s : State) : s.Inv ↔ s.Resting ∨ s.Running ∧ s.txq ≠ [] := by
  constructor
  · rintro ⟨hwf, hr, hw, hl, ha, hidle, hbusy, hs, hi⟩
    have hb : s.Bounded := ⟨hwf, hr, hw, hl, ha, hi⟩
    cases hp : s.phase with
    | idle => exact .inl ⟨hb, hp, (hidle hp).1, (hidle hp).2⟩
    | busy => exact .inr ⟨⟨hb, hp, (hbusy hp).2, hs⟩, (hbusy hp).1⟩
  · rintro (⟨⟨hwf, hr, hw, hl, ha, hi⟩, hp, hq, hu⟩ | ⟨⟨⟨hwf, hr, hw, hl, ha, hi⟩, hp, ho, hs⟩, hq⟩)
    · exact ⟨hwf, hr, hw, hl, ha, fun _ => ⟨hq, hu⟩, by simp [hp], by simp [hu], hi⟩
    · exact ⟨hwf, hr, hw, hl, ha, by simp [hp], fun _ => ⟨hq, ho⟩, hs, hi⟩

theorem State.Resting.inv {s : State} (h : s.Resting) : s.Inv := (inv_iff s).2 (.inl h)

theorem State.Running.inv {s : State} (h : s.Running) (hq : s.txq ≠ []) : s.Inv :=
  (inv_iff s).2 (.inr ⟨h, hq⟩)

theorem State.Resting.ready {s : State} (h : s.Resting) : s.Ready := ⟨h.idle, h.empty, h.unsaved, h.wf⟩

/-! ## Writing and restoring IE, and ending an operation -/

theorem State.Bounded.writeIE {s : State} (h : s.Bounded) (b : Bool) : (s.writeIE b).Bounded :=
  { h with noneWaits := by cases b <;> simp }

/-- The host writes `IE` of a block at rest (R23). -/
theorem State.Resting.writeIE {s : State} (h : s.Resting) (b : Bool) : (s.writeIE b).Resting :=
  { h.toBounded.writeIE b with idle := h.idle, empty := h.empty, unsaved := h.unsaved }

theorem State.Bounded.restoreIE {s : State} (h : s.Bounded) : s.restoreIE.Bounded := by
  cases hi : s.ies with
  | none => rwa [State.restoreIE_none hi]
  | some b =>
    rw [show s.restoreIE = { s.writeIE b with ies := none } by simp [State.restoreIE, hi]]
    exact { h.writeIE b with }

/-- Bytes dropped from the queue leave the accumulator within its bound. -/
theorem State.Bounded.dropQueue {s : State} (h : s.Bounded) : ({ s with txq := [] } : State).Bounded :=
  { h with
    queue := Nat.zero_le _
    acc_lt := Nat.lt_of_lt_of_le h.acc_lt
      (Nat.pow_le_pow_right (by decide) (Nat.mul_le_mul_left 8 (Nat.sub_le_sub_left (Nat.zero_le _) _))) }

theorem State.Bounded.raise {s : State} (h : s.Bounded) (e : BlockError) : (s.raise e).Resting :=
  { h.dropQueue.restoreIE with idle := rfl, empty := s.raise_txq e, unsaved := s.raise_ies e }

theorem State.Bounded.complete {s : State} (h : s.Bounded) (hq : s.txq = []) : s.complete.Resting :=
  { h.restoreIE with idle := rfl, empty := s.complete_txq.trans hq, unsaved := s.complete_ies }

/-- A reset leaves a block at rest, whatever it cut short (R220). -/
theorem blockReset_resting {s : State} (hwf : s.cfg.wf = true) : s.blockReset.Resting where
  wf := hwf
  rxn_le := by simp
  width := by simp
  queue := by simp
  acc_lt := by simp
  noneWaits := by simp +contextual [State.blockReset]
  idle := rfl
  empty := rfl
  unsaved := rfl

/-! ## Exchanges -/

/-- One more byte received needs 8 more bits (R141). -/
theorem shiftIn_lt {acc : Word} {k : Nat} (h : acc.toNat < 2 ^ (8 * k)) (hk : k ≤ 3) (r : Byte) :
    (shiftIn acc r).toNat < 2 ^ (8 * (k + 1)) := by
  have hle : 2 ^ (8 * k) ≤ 2 ^ 24 := Nat.pow_le_pow_right (by decide) (by omega)
  have hr := r.isLt
  rw [shiftIn_toNat acc r (by omega), Nat.mul_add, Nat.pow_add]
  omega

theorem State.Bounded.exchanged {s : State} (h : s.Bounded) (hq : s.txq ≠ []) (r : Byte) :
    (s.exchanged r).Bounded := by
  obtain ⟨b, rest, hbq⟩ := List.exists_cons_of_ne_nil hq
  have hr := h.rxn_le
  have hl := h.queue
  have ha := h.acc_lt
  rw [hbq, List.length_cons] at hl ha
  rw [State.exchanged_cons hbq]
  refine { h with queue := Nat.le_of_succ_le hl, acc_lt := ?_ }
  by_cases hk : rest.length < s.rxn
  · simp only [if_pos hk]
    rw [show s.rxn - rest.length = s.rxn - (rest.length + 1) + 1 by omega]
    exact shiftIn_lt ha (by omega) r
  · simp only [if_neg hk]
    rwa [show s.rxn - rest.length = s.rxn - (rest.length + 1) by omega]

theorem State.Running.exchanged {s : State} (h : s.Running) (hq : s.txq ≠ []) (r : Byte) :
    (s.exchanged r).Running :=
  { h.toBounded.exchanged hq r with
    busy := by simp [h.busy]
    owed := by simp [h.owed]
    saved := by simpa using h.saved }

theorem State.Bounded.exchangeFails {s : State} (h : s.Bounded) (hq : s.txq ≠ []) :
    s.exchangeFails.Resting := by
  obtain ⟨b, rest, hbq⟩ := List.exists_cons_of_ne_nil hq
  have htried : ({ s with trace := s.trace ++ [⟨b, none⟩] } : State).Bounded := { h with }
  rw [State.exchangeFails_cons hbq]
  exact htried.raise _

/-- The sequencer, begun within the invariant, answers within it: every exchange keeps `Running`, and every way
the run can end gives `Inv`. -/
theorem State.Running.serve_inv {s t : State} (hs : s.Running) (ins : List Input) (h : s.serve ins = .next t) :
    t.Inv := by
  refine serve_induct (M := State.Running) (Q := State.Inv)
    ?script ?draw ?byte ?wait ?done ?fail ?stuck ?taken ins s t ?cut hs h
  case script => exact fun _ _ h => { h with }
  case draw => exact fun _ h => { h with }
  case byte => exact fun _ r h hq => h.exchanged hq r
  case wait => exact fun _ h hie => { h with noneWaits := by simp [hie] }
  case done => exact fun _ h hq => (h.complete hq).inv
  case fail => exact fun _ h hq => (h.exchangeFails hq).inv
  case stuck => exact fun _ h hq => h.inv hq
  case taken => exact fun v h hq _ => State.Running.inv (s := v.takeInterrupt) { h with } hq
  case cut => exact fun _ _ h => (blockReset_resting h.wf).inv

/-! ## Accepting an operation -/

/-- The transaction of an operation begins within the invariant. -/
theorem Begins.running {i : Instr} {s : State} {x : Transaction} (hb : Begins i s x) (hs : s.Bounded) :
    (s.begun x).Running where
  wf := hs.wf
  rxn_le := by
    have h1 := hb.rxn
    have h2 := hb.len
    simp only [State.begun, State.midway]
    omega
  width := hb.wreg.elim (fun hw => by simpa [State.begun, State.midway, hw] using hs.width) id
  queue := hb.len
  acc_lt := by simp [State.begun, State.midway, bigEndian]
  noneWaits := by
    rcases hb.ie with ⟨-, hie⟩ | ⟨-, hie, -⟩
    · exact fun h => hs.noneWaits (hie ▸ h)
    · simp [State.begun, State.midway, hie]
  busy := rfl
  owed := rfl
  saved := by
    rcases hb.ie with ⟨hn, -⟩ | ⟨-, hie, rfl, hc⟩
    · exact fun h => absurd hn h
    · exact fun _ => ⟨hie, hb.fmt, hc⟩

theorem State.Resting.exec_inv {i : Instr} {s t : State} (hs : s.Resting) (h : exec i s = .next t) : t.Inv := by
  rcases exec_next hs.ready h with ⟨-, bytes, x, -, -, hb, ht⟩ | ⟨-, -, id, rfl⟩
  · exact (hb.running hs.toBounded).serve_inv _ ht
  · exact State.Resting.inv { hs with }

/-- Settles O57, by the phase: a running operation goes on with the sequencer, which keeps the invariant; a block
at rest waits, has `IE` written, is reset, or runs an operation from its acceptance on. -/
theorem everyStepKeepsTheInvariant : Obligations.EveryStepKeepsTheInvariant := by
  intro s t hs h
  rcases (inv_iff s).1 hs with hs | ⟨hs, -⟩
  · rw [step_idle hs.idle] at h
    have hrest : ∀ rest, ({ s with host := rest } : State).Resting := fun _ => { hs with }
    obtain rfl | ⟨b, rest, rfl⟩ | ⟨rest, rfl⟩ | ⟨i, rest, hi⟩ := hostStep_next h
    · exact hs.inv
    · exact ((hrest rest).writeIE b).inv
    · exact (blockReset_resting hs.wf).inv
    · exact (hrest rest).exec_inv hi
  · rw [step_busy hs.busy] at h
    exact hs.serve_inv _ h

end Sys2Proof.Machine
end

section
/-! SUPPORT. The sequencer as moves: what the transport's next answer is, how one entry of the script takes a
busy block on, and how a step ends (10_state.md R22, R23). A step is its moves and then its end, so that a proof
about a step may follow the script as it is used up. -/

namespace Sys2Proof.Machine

/-! ## Ending an operation, in the rules' own words (R22 (c), R199) -/

theorem raise_eq_ended (e : BlockError) (s : State) : s.raise e = s.ended (.error e) := by
  rcases hi : s.ies with - | (- | -) <;>
    simp [State.raise, State.ended, State.restoreIE, State.writeIE, State.deliver, hi]

theorem complete_eq_ended {s : State} (hq : s.txq = []) : s.complete = s.ended s.result := by
  rcases hi : s.ies with - | (- | -) <;>
    simp [State.complete, State.ended, State.restoreIE, State.writeIE, State.deliver, hi, hq]

theorem exchangeFails_eq_ended {s : State} {b : Byte} {q : List Byte} (hq : s.txq = b :: q) :
    s.exchangeFails = ({ s with trace := s.trace ++ [⟨b, none⟩] } : State).ended (.error .transportFailure) :=
  (State.exchangeFails_cons hq).trans (raise_eq_ended _ _)

/-! ## One move, and the end of a step -/

/-- The transport's next answer is `a`, from the script or, past its end, free (R10); what is left once it is
used. -/
inductive State.Hears : State → Answer → State → Prop
  | scripted {s : State} {a : Answer} {rest : List Input} (hin : s.inputs = .answer a :: rest) :
      State.Hears s a { s with inputs := rest }
  | free {s : State} {a : Answer} (hin : s.inputs = []) (ha : Config.freeAnswer s.draws = a) :
      State.Hears s a { s with draws := s.draws + 1 }

/-- The operation goes on: an exchange is made, or an interrupt waits (R22 (b), R197). -/
inductive State.Moves : State → State → Prop
  | byte {s u : State} {r : Byte} (hq : s.txq ≠ []) (ha : s.Hears (.byte r) u) : State.Moves s (u.exchanged r)
  | held {s : State} {rest : List Input} (hq : s.txq ≠ []) (hin : s.inputs = .interrupt :: rest)
      (hie : s.ie = false) : State.Moves s (State.holdInterrupt { s with inputs := rest })

/-- The step ends: completion, a failed exchange, one that never returns, an interrupt taken, a reset. -/
inductive State.Ends : State → State → Prop
  | done {s : State} (hq : s.txq = []) : State.Ends s s.complete
  | fail {s u : State} (hq : s.txq ≠ []) (ha : s.Hears .fail u) : State.Ends s u.exchangeFails
  | hang {s u : State} (hq : s.txq ≠ []) (ha : s.Hears .hang u) : State.Ends s s
  | taken {s : State} {rest : List Input} (hq : s.txq ≠ []) (hin : s.inputs = .interrupt :: rest)
      (hie : s.ie = true) : State.Ends s (State.takeInterrupt { s with inputs := rest })
  | reset {s : State} {rest : List Input} (hq : s.txq ≠ []) (hin : s.inputs = .reset :: rest) :
      State.Ends s (State.blockReset { s with inputs := rest })

/-- A move is part of the step: the sequencer does from the state before it what it does from the state after. -/
theorem State.Moves.resume_eq {s w : State} (h : s.Moves w) : s.resume = w.resume := by
  cases h with
  | byte hq ha =>
    cases ha with
    | scripted hin => simp [State.resume, hin, serve_byte hq]
    | free hin ha =>
      obtain ⟨b, q, hbq⟩ := List.exists_cons_of_ne_nil hq
      simp [State.resume, hin, hbq, exchangeFree_byte ha]
  | held hq hin hie => simp [State.resume, hin, serve_interrupt_held hq hie]

theorem State.Ends.resume_eq {s t : State} (h : s.Ends t) : s.resume = .next t := by
  cases h with
  | done hq => exact serve_complete hq _
  | fail hq ha =>
    cases ha with
    | scripted hin => rw [State.resume, hin, serve_fail hq]
    | free hin ha =>
      obtain ⟨b, q, hbq⟩ := List.exists_cons_of_ne_nil hq
      simp [State.resume, hin, hbq, exchangeFree_fail ha]
  | hang hq ha =>
    cases ha with
    | scripted hin => rw [State.resume, hin, serve_hang hq]
    | free hin ha =>
      obtain ⟨b, q, hbq⟩ := List.exists_cons_of_ne_nil hq
      simp [State.resume, hin, hbq, exchangeFree_hang ha]
  | taken hq hin hie => rw [State.resume, hin, serve_interrupt_taken hq hie]
  | reset hq hin => rw [State.resume, hin, serve_reset hq]

/-- A move uses up a byte of the queue or an entry of the script. -/
theorem State.Moves.shorter {s w : State} (h : s.Moves w) :
    w.txq.length + w.inputs.length < s.txq.length + s.inputs.length := by
  cases h with
  | byte hq ha =>
    have hlen := List.length_pos_of_ne_nil hq
    cases ha with
    | scripted hin => simp [hin]; omega
    | free hin ha => simp [hin]; omega
  | held hq hin hie => simp [hin]

/-- The next answer of the transport decides what a block with a byte to send does. -/
theorem moves_or_ends_of_hears {s u : State} {a : Answer} (hq : s.txq ≠ []) (ha : s.Hears a u) :
    (∃ w, s.Moves w) ∨ ∃ t, s.Ends t := by
  cases a with
  | byte r => exact .inl ⟨_, .byte hq ha⟩
  | fail => exact .inr ⟨_, .fail hq ha⟩
  | hang => exact .inr ⟨_, .hang hq ha⟩

/-- What the script holds next decides: the operation goes on, the step ends, or it is refused. -/
theorem moves_or_ends (s : State) :
    (∃ w, s.Moves w) ∨ (∃ t, s.Ends t) ∨ ∃ r, s.resume = .refused r := by
  by_cases hq : s.txq = []
  · exact .inr (.inl ⟨_, .done hq⟩)
  rw [← or_assoc]
  rcases hin : s.inputs with - | ⟨a | - | - | k, rest⟩
  · exact .inl (moves_or_ends_of_hears hq (.free hin rfl))
  · exact .inl (moves_or_ends_of_hears hq (.scripted hin))
  · cases hie : s.ie with
    | true => exact .inl (.inr ⟨_, .taken hq hin hie⟩)
    | false => exact .inl (.inl ⟨_, .held hq hin hie⟩)
  · exact .inl (.inr ⟨_, .reset hq hin⟩)
  · exact .inr ⟨k.refusal, by rw [State.resume, hin, serve_intrusion hq]⟩

/-- The induction over a step, the script in view: what every move keeps, and what follows from it at the end of
the step, holds of the state the step answers. -/
theorem resume_induct {M Q : State → Prop} (move : ∀ v w, M v → v.Moves w → M w)
    (last : ∀ v t, M v → v.Ends t → Q t) {s t : State} (hs : M s) (h : s.resume = .next t) : Q t := by
  induction hn : s.txq.length + s.inputs.length using Nat.strongRecOn generalizing s with
  | ind n ih =>
    subst hn
    rcases moves_or_ends s with ⟨w, hw⟩ | ⟨u, hu⟩ | ⟨r, hr⟩
    · exact ih _ hw.shorter (move s w hs hw) (hw.resume_eq ▸ h) rfl
    · have e : u = t := by simpa [hu.resume_eq] using h
      exact e ▸ last s u hs hu
    · rw [hr] at h
      cases h

end Sys2Proof.Machine
end

section
/-! SUPPORT. The state after reset, and what one step does: an idle block by its host's next action, a busy one by
the next entry of the script (10_state.md R22, R31). -/

namespace Sys2Proof.Machine

/-! ## After reset -/

theorem reset_resting : State.reset.Resting where
  wf := by decide
  rxn_le := by decide
  width := by decide
  queue := by decide
  acc_lt := by decide
  noneWaits := fun _ => rfl
  idle := rfl
  empty := rfl
  unsaved := rfl

/-- Settles O52: a block at rest meets the launch premises. -/
theorem resetIsIdleAndEmpty : Obligations.ResetIsIdleAndEmpty :=
  ⟨rfl, rfl, rfl, rfl, reset_resting.ready⟩

/-- Settles O56: a block at rest has the invariant. -/
theorem invariantHoldsAtReset : Obligations.InvariantHoldsAtReset := reset_resting.inv

/-! ## An idle block -/

theorem hostStep_request {s : State} {r : Request} {rest : List HostAction} {i : Instr}
    (hh : s.host = .request r :: rest) (hd : decodeRequest r = .ok i) :
    hostStep s = exec i { s with host := rest } := by
  simp [hostStep, hh, hd]

theorem hostStep_setIE {s : State} {b : Bool} {rest : List HostAction} (hh : s.host = .setIE b :: rest) :
    hostStep s = .next (State.writeIE b { s with host := rest }) := by
  simp [hostStep, hh]

/-- Settles O1: an idle block turns to its host. -/
theorem stepRunsThePresentedOperation : Obligations.StepRunsThePresentedOperation :=
  fun _ _ _ _ hp hh hd => (step_idle hp).trans (hostStep_request hh hd)

/-- Settles O51: an idle block turns to its host. -/
theorem hostWritesInterruptEnableWhenIdle : Obligations.HostWritesInterruptEnableWhenIdle :=
  fun _ _ _ hp hh => (step_idle hp).trans (hostStep_setIE hh)

/-! ## A busy block -/

theorem State.Moves.step_eq {s w : State} (h : s.Moves w) (hp : s.phase = .busy) (hp' : w.phase = .busy) :
    step s = step w := by
  rw [step_busy hp, step_busy hp', h.resume_eq]

theorem State.Ends.step_eq {s t : State} (h : s.Ends t) (hp : s.phase = .busy) : step s = .next t :=
  (step_busy hp).trans h.resume_eq

/-- Settles O2: by the next entry of the script, each a move or an end of the step; and with nothing left to
send, completion. -/
theorem busyStepMakesTheNextExchange : Obligations.BusyStepMakesTheNextExchange := by
  refine ⟨fun s b q x rest hp hq hin => ?_, fun s hp hq => ?_⟩
  · have hne : s.txq ≠ [] := by simp [hq]
    have hq' : ({ s with inputs := rest } : State).txq = b :: q := hq
    rcases x with (r | - | -) | - | - | k
    · have h := (State.Moves.byte hne (.scripted (a := .byte r) hin)).step_eq hp (by simp [hp])
      exact h.trans (congrArg step (State.exchanged_cons hq' r))
    · have h := (State.Ends.fail hne (.scripted hin)).step_eq hp
      exact h.trans (congrArg _ (exchangeFails_eq_ended hq'))
    · exact (State.Ends.hang hne (.scripted hin)).step_eq hp
    · dsimp only
      split
      next hie => exact (State.Ends.taken hne hin hie).step_eq hp
      next hie => exact (State.Moves.held hne hin (by simpa using hie)).step_eq hp hp
    · exact ⟨_, (State.Ends.reset hne hin).step_eq hp, rfl, rfl, rfl, rfl, rfl, rfl, rfl, rfl, rfl, rfl⟩
    · have h : step s = .refused k.refusal := by rw [step_busy hp, State.resume, hin, serve_intrusion hne]
      cases k <;> exact h
  · exact ((State.Ends.done hq).step_eq hp).trans (congrArg _ (complete_eq_ended hq))

end Sys2Proof.Machine
end

section
/-! SUPPORT. What an operation does to `IE` at its acceptance, and what every part of its step that is no reset
leaves alone (10_state.md R21, R23, R24). -/

namespace Sys2Proof.Machine

/-! ## `IE` and `IES` at acceptance (R171) -/

theorem Begins.critical {i : Instr} {s : State} {x : Transaction} (hb : Begins i s x)
    (hi : i = .getStatus) (hc : s.cfg.criticalStatus = true) : x.ie = false ∧ x.ies = some s.ie := by
  have hies := hb.crit hi hc
  rcases hb.ie with ⟨hn, -⟩ | ⟨-, hie, -⟩
  · simp [hn] at hies
  · exact ⟨hie, hies⟩

theorem Begins.uncritical {i : Instr} {s : State} {x : Transaction} (hb : Begins i s x)
    (hc : i = .getStatus → s.cfg.criticalStatus = false) : x.ie = s.ie ∧ x.ies = none := by
  rcases hb.ie with ⟨hies, hie⟩ | ⟨-, -, hi, hcrit⟩
  · exact ⟨hie, hies⟩
  · simp [hc hi] at hcrit

/-! ## Frames -/

/-- `t` has the width, the decode path, the configuration and the host's queue of `s`; and where no `IE` is saved
in `s`, its `IE`, with none saved. -/
structure State.Frame (s t : State) : Prop where
  wreg : t.wreg = s.wreg
  sgn : t.sgn = s.sgn
  cfg : t.cfg = s.cfg
  host : t.host = s.host
  flags : s.ies = none → t.ie = s.ie ∧ t.ies = none

theorem State.Frame.trans {s t u : State} (h : s.Frame t) (h' : t.Frame u) : s.Frame u where
  wreg := h'.wreg.trans h.wreg
  sgn := h'.sgn.trans h.sgn
  cfg := h'.cfg.trans h.cfg
  host := h'.host.trans h.host
  flags hi := ⟨(h'.flags (h.flags hi).2).1.trans (h.flags hi).1, (h'.flags (h.flags hi).2).2⟩

theorem frame_exchanged (s : State) (r : Byte) : s.Frame (s.exchanged r) :=
  ⟨s.exchanged_wreg r, s.exchanged_sgn r, s.exchanged_cfg r, s.exchanged_host r,
    fun hi => ⟨s.exchanged_ie r, (s.exchanged_ies r).trans hi⟩⟩

theorem frame_ended (s : State) (r : Reply) : s.Frame (s.ended r) :=
  ⟨rfl, rfl, rfl, rfl, fun hi => by simp [State.ended, hi]⟩

/-- A step without a reset keeps the frame. -/
theorem serve_frame {s t : State} (ins : List Input) (hr : Input.reset ∉ ins) (h : s.serve ins = .next t) :
    s.Frame t := by
  refine serve_induct (M := s.Frame) (Q := s.Frame)
    ?script ?draw ?byte ?wait ?done ?fail ?stuck ?taken ins s t ?cut ?start h
  case script => exact fun _ _ hv => { hv with }
  case draw => exact fun _ hv => { hv with }
  case byte => exact fun v r hv _ => hv.trans (frame_exchanged v r)
  case wait => exact fun _ hv _ => { hv with }
  case done => exact fun v hv hq => complete_eq_ended hq ▸ hv.trans (frame_ended v _)
  case fail =>
    intro v hv hq
    obtain ⟨b, q, hbq⟩ := List.exists_cons_of_ne_nil hq
    have htried : s.Frame { v with trace := v.trace ++ [⟨b, none⟩] } := { hv with }
    exact exchangeFails_eq_ended hbq ▸ htried.trans (frame_ended _ _)
  case stuck => exact fun _ hv _ => hv
  case taken => exact fun _ hv _ _ => { hv with }
  case cut => exact fun hr' => absurd hr' hr
  case start => exact ⟨rfl, rfl, rfl, rfl, fun hi => ⟨rfl, hi⟩⟩

/-- What an operation leaves alone in a step without a reset: the configuration and the host's queue; `IE` and
`IES`, but for a critical status read; `WREG`, but for the parameter accesses; `SGN`, but for the parameter
reads. -/
theorem exec_frame {i : Instr} {s t : State} (hs : s.Ready) (hr : s.NoReset) (h : exec i s = .next t) :
    t.cfg = s.cfg ∧ t.host = s.host ∧
      ((i = .getStatus → s.cfg.criticalStatus = false) → t.ie = s.ie ∧ t.ies = none) ∧
      (i.format ≠ .pw → i.format ≠ .pr → t.wreg = s.wreg) ∧ (i.format ≠ .pr → t.sgn = s.sgn) := by
  rcases exec_next hs h with ⟨-, bytes, x, -, -, hb, ht⟩ | ⟨-, -, id, rfl⟩
  · have hf : (s.begun x).Frame t := serve_frame _ hr ht
    refine ⟨hf.cfg, hf.host, fun hc => ?_, fun hw hg => hf.wreg.trans (hb.wfix hw hg),
      fun hg => hf.sgn.trans (hb.sfix hg)⟩
    obtain ⟨hie, hies⟩ := hb.uncritical hc
    exact ⟨(hf.flags hies).1.trans hie, (hf.flags hies).2⟩
  · obtain ⟨-, -, hies, -⟩ := hs
    exact ⟨rfl, rfl, fun _ => ⟨rfl, hies⟩, fun _ _ => rfl, fun _ => rfl⟩

/-- Settles O46: the formats Z and P3 are neither a status read nor a parameter access. -/
theorem commandsLeaveFlagsAndWidthsAlone : Obligations.CommandsLeaveFlagsAndWidthsAlone := by
  intro i s t hf hs hr h
  obtain ⟨hc, hh, hflags, hw, hg⟩ := exec_frame hs hr h
  obtain ⟨hie, hies⟩ := hflags (by rintro rfl; simp [Instr.format] at hf)
  have hpw : i.format ≠ .pw := by rcases hf with hf | hf <;> simp [hf]
  have hpr : i.format ≠ .pr := by rcases hf with hf | hf <;> simp [hf]
  exact ⟨hie, hies, hw hpw hpr, hg hpr, hc, hh⟩

/-- Settles O47: a parameter access is no status read, and a write no parameter read. -/
theorem parameterAccessesLeaveFlagsAlone : Obligations.ParameterAccessesLeaveFlagsAlone := by
  intro i s t hf hs hr h
  obtain ⟨hc, hh, hflags, -, hg⟩ := exec_frame hs hr h
  obtain ⟨hie, hies⟩ := hflags (by rintro rfl; simp [Instr.format] at hf)
  exact ⟨hie, hies, hc, hh, fun hpw => hg (by simp [hpw])⟩

/-- Settles O50: the exchanges before the interrupt are made, and there it is taken. -/
theorem interruptIsTakenBetweenExchanges : Obligations.InterruptIsTakenBetweenExchanges := by
  intro i s bytes rs rest hs hie hc hw he hlen hin
  obtain ⟨x, rfl, hb⟩ := begins_encoding hs hw he
  obtain ⟨hxie, hxies⟩ := hb.uncritical hc
  have hq : (s.midway x rs (.interrupt :: rest)).txq ≠ [] := by simp [State.midway, hlen]
  have ht := serve_interrupt_taken hq (hxie.trans hie) rest
  rw [← resume_begun hb.rxn hb.len hin (Nat.le_of_lt hlen), ← hb.exec_eq] at ht
  exact ⟨_, ht, rfl, rfl, rfl, rfl, rfl, hxie.trans hie, hxies, rfl, rfl, rfl⟩

end Sys2Proof.Machine
end

section
/-! SUPPORT. The bytes an operation has sent, and those it has still to send, are its encoding (10_state.md R22,
20_memory.md R62). -/

namespace Sys2Proof.Machine

/-- An operation begun in `s` has made the exchanges `ev`: their bytes and those still queued are `bytes`, in
order, and no outcome has been delivered. -/
structure State.Sending (s : State) (bytes : List Byte) (ev : List BusEvent) (v : State) : Prop where
  busy : v.phase = .busy
  replies : v.replies = s.replies
  trace : v.trace = s.trace ++ ev
  bytes : ev.map (·.out) ++ v.txq = bytes

/-- What an operation begun in `s` leaves, in progress or over: the first of `bytes` sent, and all of them where
it delivered an outcome that is no error. -/
def State.SentInOrder (s : State) (bytes : List Byte) (t : State) : Prop :=
  ∃ ev : List BusEvent, t.trace = s.trace ++ ev ∧ ev.map (·.out) <+: bytes ∧
    ((t.phase = .busy ∧ t.replies = s.replies) ∨
     (t.phase = .idle ∧ ∃ r, t.replies = s.replies ++ [r] ∧
      ((∀ e, r ≠ .error e) → ev.map (·.out) = bytes)))

section
variable {s v : State} {bytes : List Byte} {ev : List BusEvent}

theorem State.Sending.exchanged (h : s.Sending bytes ev v) (hq : v.txq ≠ []) (r : Byte) :
    ∃ ev, s.Sending bytes ev (v.exchanged r) := by
  obtain ⟨b, q, hbq⟩ := List.exists_cons_of_ne_nil hq
  refine ⟨ev ++ [⟨b, some r⟩], ?_⟩
  rw [State.exchanged_cons hbq]
  exact { h with
    trace := by simp [h.trace]
    bytes := by simp [← h.bytes, hbq] }

theorem State.Sending.pending (h : s.Sending bytes ev v) : s.SentInOrder bytes v :=
  ⟨ev, h.trace, ⟨v.txq, h.bytes⟩, .inl ⟨h.busy, h.replies⟩⟩

theorem State.Sending.complete (h : s.Sending bytes ev v) (hq : v.txq = []) :
    s.SentInOrder bytes v.complete := by
  have hall : ev.map (·.out) = bytes := by simpa [hq] using h.bytes
  exact ⟨ev, by simp [h.trace], ⟨[], by simp [hall]⟩,
    .inr ⟨rfl, v.result, by simp [h.replies], fun _ => hall⟩⟩

theorem State.Sending.fails (h : s.Sending bytes ev v) (hq : v.txq ≠ []) :
    s.SentInOrder bytes v.exchangeFails := by
  obtain ⟨b, q, hbq⟩ := List.exists_cons_of_ne_nil hq
  rw [exchangeFails_eq_ended hbq]
  exact ⟨ev ++ [⟨b, none⟩], by simp [State.ended, h.trace], ⟨q, by simp [← h.bytes, hbq]⟩,
    .inr ⟨rfl, .error .transportFailure, congrArg (· ++ _) h.replies, fun hne => absurd rfl (hne _)⟩⟩

end

/-- A step without a reset sends the queued bytes in order. -/
theorem State.Sending.serve {s u t : State} {bytes : List Byte} {ev : List BusEvent} (hu : s.Sending bytes ev u)
    (ins : List Input) (hr : Input.reset ∉ ins) (h : u.serve ins = .next t) : s.SentInOrder bytes t := by
  refine serve_induct (M := fun v => ∃ ev, s.Sending bytes ev v) (Q := s.SentInOrder bytes)
    ?script ?draw ?byte ?wait ?done ?fail ?stuck ?taken ins u t ?cut ⟨ev, hu⟩ h
  case script => exact fun _ _ ⟨ev, hv⟩ => ⟨ev, { hv with }⟩
  case draw => exact fun _ ⟨ev, hv⟩ => ⟨ev, { hv with }⟩
  case byte => exact fun _ r ⟨_, hv⟩ hq => hv.exchanged hq r
  case wait => exact fun _ ⟨ev, hv⟩ _ => ⟨ev, { hv with }⟩
  case done => exact fun _ ⟨_, hv⟩ hq => hv.complete hq
  case fail => exact fun _ ⟨_, hv⟩ hq => hv.fails hq
  case stuck => exact fun _ ⟨_, hv⟩ _ => hv.pending
  case taken => exact fun v ⟨_, hv⟩ _ _ => State.Sending.pending (v := v.takeInterrupt) { hv with }
  case cut => exact fun hr' => absurd hr' hr

/-- The transaction of an operation begins with nothing sent. -/
theorem sending_begun (s : State) (x : Transaction) : s.Sending x.out [] (s.begun x) :=
  ⟨rfl, rfl, by simp [State.begun, State.midway, events], rfl⟩

/-- Settles O45: an operation with an encoding begins its transaction, whose bytes it sends in order. -/
theorem bytesGoOutInOrder : Obligations.BytesGoOutInOrder := by
  intro i s t bytes hs hr he h
  rcases exec_next hs h with ⟨-, bytes', x, he', rfl, -, ht⟩ | ⟨he', -⟩
  · obtain rfl : x.out = bytes := Option.some.inj (he'.symm.trans he)
    exact (sending_begun s x).serve _ hr ht
  · simp [he'] at he

end Sys2Proof.Machine
end

section
/-! SUPPORT. Interrupts while `IE` is 0: they wait, none is lost, and nothing else depends on them (10_state.md R23,
43_status_reader.md R170, R171, 60_exceptions.md R197). -/

namespace Sys2Proof.Machine

/-- From two ready states with the same configuration an operation does the same of three things: it begins its
transaction, with the same bytes; it delivers `InvalidRegister` with the same identifier; or it is refused. -/
theorem exec_cases_pair (i : Instr) {s s' : State} (hs : s.Ready) (hs' : s'.Ready) (hc : s'.cfg = s.cfg) :
    (∃ x x', x'.out = x.out ∧ Begins i s x ∧ Begins i s' x') ∨
    (∃ e, exec i s = .next { s with replies := s.replies ++ [.error e], undelivered := false } ∧
      exec i s' = .next { s' with replies := s'.replies ++ [.error e], undelivered := false }) ∨
    ∃ r, exec i s = .refused r ∧ exec i s' = .refused r := by
  rcases exec_cases i hs with ⟨hw, bytes, x, he, hx, hb⟩ | ⟨hw, he, -, id, hid, h⟩ | ⟨hw, dir, hd, h⟩
  · obtain ⟨x', hx', hb'⟩ := begins_encoding hs' hw (hc ▸ he)
    exact .inl ⟨x, x', hx'.trans hx.symm, hb, hb'⟩
  · rcases exec_cases i hs' with ⟨-, bytes, x, he', -⟩ | ⟨-, -, -, id', hid', h'⟩ | ⟨hw', -⟩
    · simp [hc, he] at he'
    · obtain rfl : id = id' := Option.some.inj (hid.symm.trans (hc ▸ hid'))
      exact .inr (.inl ⟨_, h, h'⟩)
    · simp [hw] at hw'
  · rcases exec_cases i hs' with ⟨hw', -⟩ | ⟨hw', -⟩ | ⟨-, dir', hd', h'⟩
    · simp [hw] at hw'
    · simp [hw] at hw'
    · obtain rfl : dir = dir' := Option.some.inj (hd.symm.trans hd')
      exact .inr (.inr ⟨_, h, h'⟩)

/-- A masked operation runs with `IE` at 0. -/
theorem Begins.masked {i : Instr} {s : State} {x : Transaction} (hb : Begins i s x) (hm : s.Masked i) :
    x.ie = false := by
  rcases hm with hie | ⟨hi, hc⟩
  · rcases hb.ie with ⟨-, h⟩ | ⟨-, h, -⟩
    · exact h.trans hie
    · exact h
  · exact (hb.critical hi hc).1

/-- What a masked operation has saved: the `IE` it found, or nothing where that was 0. -/
theorem Begins.masked_saves {i : Instr} {s : State} {x : Transaction} (hb : Begins i s x) (hm : s.Masked i) :
    x.ies.getD x.ie = s.ie ∧ (x.ies = some true ↔ s.ie = true) := by
  have hx := hb.masked hm
  rcases hb.ie with ⟨hies, hie⟩ | ⟨hies, -⟩
  · simp [hies, hx, ← hie]
  · simp [hies]

/-! ## A critical status read in progress, and over -/

/-- All the interrupts of a run: taken, waiting, and still to come. -/
def State.allInterrupts (s : State) : Nat := s.irqTaken + s.irqWaiting + s.inputs.count .interrupt

/-- Ending an operation loses no interrupt: where `IE` becomes 1, those that waited are taken. -/
theorem allInterrupts_ended (s : State) (r : Reply) : (s.ended r).allInterrupts = s.allInterrupts := by
  by_cases hi : s.ies = some true <;> simp [State.allInterrupts, State.ended, hi]

/-- A critical status read begun in `s` is in progress: `IE` is 0 and saved, no interrupt has been taken and none
is lost. -/
structure State.Reading (s v : State) : Prop where
  busy : v.phase = .busy
  ie : v.ie = false
  ies : v.ies = some s.ie
  noneTaken : v.irqTaken = s.irqTaken
  noneLost : v.allInterrupts = s.allInterrupts
  noReset : v.NoReset

/-- An exchange that never returns is next (R201), scripted or free. -/
def State.Waits (s : State) : Prop := s.Hung ∨ s.inputs = [] ∧ Config.freeAnswer s.draws = .hang

/-- A critical status read begun in `s` is over: `IE` is back, and where it is 1 no interrupt waits. -/
structure State.ReadOver (s v : State) : Prop where
  idle : v.phase = .idle
  ie : v.ie = s.ie
  ies : v.ies = none
  noneWaits : s.ie = true → v.irqWaiting = 0
  noneTaken : s.ie = false → v.irqTaken = s.irqTaken
  noneLost : v.allInterrupts = s.allInterrupts

section
variable {s v w : State}

theorem State.Hears.txq_eq {a : Answer} (ha : v.Hears a w) : w.txq = v.txq := by
  cases ha <;> rfl

theorem State.Reading.hears {a : Answer} (h : s.Reading v) (ha : v.Hears a w) : s.Reading w := by
  obtain ⟨hp, hie, hies, ht, hl, hr⟩ := h
  cases ha with
  | scripted hin =>
    simp only [State.allInterrupts, State.NoReset, hin] at hl hr
    exact ⟨hp, hie, hies, ht, by simpa [State.allInterrupts] using hl, by simpa [State.NoReset] using hr⟩
  | free hin ha => exact ⟨hp, hie, hies, ht, hl, hr⟩

theorem State.Reading.moves (h : s.Reading v) (hm : v.Moves w) : s.Reading w := by
  cases hm with
  | byte hq ha =>
    obtain ⟨hp, hie, hies, ht, hl, hr⟩ := h.hears ha
    constructor <;> simpa [State.allInterrupts, State.NoReset]
  | held hq hin hie =>
    obtain ⟨hp, hie, hies, ht, hl, hr⟩ := h
    simp only [State.allInterrupts, State.NoReset, hin] at hl hr
    refine ⟨hp, hie, hies, ht, ?_, by simpa [State.NoReset] using hr⟩
    rw [List.count_cons_self] at hl
    simp only [State.allInterrupts, State.holdInterrupt_irqTaken, State.holdInterrupt_irqWaiting,
      State.holdInterrupt_inputs]
    omega

theorem State.Reading.ended (h : s.Reading v) (r : Reply) : s.ReadOver (v.ended r) := by
  obtain ⟨-, -, hies, ht, hl, -⟩ := h
  constructor
  case idle => rfl
  case ie => simp [State.ended, hies]
  case ies => rfl
  case noneWaits => simp +contextual [State.ended, hies]
  case noneTaken => simp +contextual [State.ended, hies, ht]
  case noneLost => exact (allInterrupts_ended v r).trans hl

theorem State.Reading.ends (h : s.Reading v) (he : v.Ends w) :
    s.ReadOver w ∨ s.Reading w ∧ w.Waits := by
  cases he with
  | done hq => exact .inl (complete_eq_ended hq ▸ h.ended _)
  | @fail u hq ha =>
    have hu : s.Reading u := h.hears ha
    obtain ⟨b, q, hbq⟩ := List.exists_cons_of_ne_nil (ha.txq_eq ▸ hq)
    have htried : s.Reading { u with trace := u.trace ++ [⟨b, none⟩] } := { hu with }
    exact .inl (exchangeFails_eq_ended hbq ▸ htried.ended _)
  | hang hq ha =>
    refine .inr ⟨h, ?_⟩
    cases ha with
    | scripted hin => exact .inl ⟨h.busy, hq, _, hin⟩
    | free hin ha => exact .inr ⟨hin, ha⟩
  | taken hq hin hie => simp [h.ie] at hie
  | reset hq hin => exact absurd (by simp [hin]) h.noReset

end

/-- A critical status read begins in progress, and its step ends with it over or waiting for an exchange that
never returns. -/
theorem criticalRead_ends {s t : State} (hs : s.Ready) (hc : s.cfg.criticalStatus = true) (hr : s.NoReset)
    (h : exec .getStatus s = .next t) : s.ReadOver t ∨ s.Reading t ∧ t.Waits := by
  have hb := begins_status hs
  obtain ⟨hie, hies⟩ := hb.critical rfl hc
  have hbegun : s.Reading (s.begun s.statusRead) := ⟨rfl, hie, hies, rfl, rfl, hr⟩
  exact resume_induct (M := s.Reading) (fun _ _ => State.Reading.moves) (fun _ _ => State.Reading.ends) hbegun
    (hb.exec_eq ▸ h)

/-! ## A status read answered with interrupts waiting -/

/-- The script of three exchanges answered, with interrupts arriving before each. -/
def interruptedAnswers (r hi lo : Byte) (n₀ n₁ n₂ : Nat) (rest : List Input) : List Input :=
  interrupts n₀ (.answer (.byte r) ::
    interrupts n₁ (.answer (.byte hi) :: interrupts n₂ (.answer (.byte lo) :: rest)))

/-- A status read in progress with `IE` at 0, its three exchanges answered: the interrupts wait, and it ends with
the two status bytes. -/
theorem resume_interruptedAnswers {u : State} {b₀ b₁ b₂ r hi lo : Byte} {n₀ n₁ n₂ : Nat} {rest : List Input}
    (hie : u.ie = false) (hq : u.txq = [b₀, b₁, b₂]) (hfmt : u.fmt = .s2) (hrxn : u.rxn = 2) (hacc : u.acc = 0)
    (hin : u.inputs = interruptedAnswers r hi lo n₀ n₁ n₂ rest) :
    u.resume = .next (State.ended
      { u with
        inputs := rest
        txq := []
        irqWaiting := u.irqWaiting + n₀ + n₁ + n₂
        trace := u.trace ++ events [b₀, b₁, b₂] [r, hi, lo]
        acc := (hi.setWidth 32 <<< 8) ||| lo.setWidth 32 }
      (.value ((hi.setWidth 32 <<< 8) ||| lo.setWidth 32))) := by
  rw [State.resume, hin, interruptedAnswers, serve_interrupts_byte hie hq n₀ r hin,
    serve_interrupts_byte (b := b₁) (q := [b₂]) (by exact hie) rfl n₁ hi rfl,
    serve_interrupts_byte (b := b₂) (q := []) (by exact hie) rfl n₂ lo rfl, serve_complete rfl,
    complete_eq_ended rfl]
  simp [State.result, hfmt, hrxn, hacc, shiftIn, events]

/-- Settles O29: a critical status read ends over or waiting; one that is answered sends its bytes with the
interrupts waiting; and the sequencer does the same without the interrupts. -/
theorem statusReadIsNeverPreempted : Obligations.StatusReadIsNeverPreempted := by
  refine ⟨fun s t hs hc hr h => ?_, fun s r hi lo n₀ n₁ n₂ rest hs hm hin => ?_, fun i s hs hm => ?_⟩
  · rcases criticalRead_ends hs hc hr h with ht | ⟨ht, hw⟩
    · exact ⟨by simp [ht.idle], fun _ => ⟨ht.ie, ht.ies, ht.noneWaits, ht.noneTaken⟩, ht.noneLost⟩
    · exact ⟨fun _ => ⟨ht.ie, ht.ies, ht.noneTaken, hw⟩, by simp [ht.busy], ht.noneLost⟩
  · have hb := begins_status hs
    have hie : (s.begun s.statusRead).ie = false := hb.masked hm
    have hacc : (s.begun s.statusRead).acc = 0 := rfl
    have ht := hb.exec_eq.trans (resume_interruptedAnswers hie rfl rfl rfl hacc hin)
    obtain ⟨hback, hsaved⟩ := hb.masked_saves hm
    refine ⟨_, ht, rfl, ?_, rfl, rfl, hback, rfl, ?_, ?_⟩
    · simp [State.ended, State.begun, State.midway, events]
    · simp [State.ended, State.begun, State.midway, hsaved, Nat.add_assoc]
    · simp [State.ended, State.begun, State.midway, hsaved]
  · have hs' : ({ s with inputs := quiet s.inputs } : State).Ready := hs
    rcases exec_cases_pair i hs hs' rfl with ⟨x, x', hx, hb, hb'⟩ | ⟨e, h, h'⟩ | ⟨r, h, h'⟩
    · obtain rfl : x' = x := hb.unique hb' hx rfl rfl rfl rfl
      rw [hb.exec_eq, hb'.exec_eq]
      exact serve_quiet _ _ _ rfl (hb.masked hm) rfl
    · rw [h, h']
      exact ⟨by rintro _ ⟨⟩; exact ⟨_, rfl, rfl⟩, by rintro _ ⟨⟩⟩
    · rw [h, h']
      exact ⟨by rintro _ ⟨⟩, fun _ e => e⟩

end Sys2Proof.Machine
end

section
/-! SUPPORT. Two runs of one operation that differ in what was there before it: they make the same moves and end
alike (10_state.md R20). -/

namespace Sys2Proof.Machine

/-- Two logs have grown alike: from `a` to `b` and from `a'` to `b'` by the same entries. -/
def GrownAlike {α : Type} (a a' b b' : List α) : Prop := ∃ l, b = a ++ l ∧ b' = a' ++ l

theorem GrownAlike.refl {α : Type} (a a' : List α) : GrownAlike a a' a a' := ⟨[], by simp⟩

theorem GrownAlike.snoc {α : Type} {a a' b b' : List α} (h : GrownAlike a a' b b') (x : α) :
    GrownAlike a a' (b ++ [x]) (b' ++ [x]) := by
  obtain ⟨l, rfl, rfl⟩ := h
  exact ⟨l ++ [x], by simp⟩

/-- Two runs from `s` and `s'` stand alike at `v` and `v'`: they agree in what the operation in progress reads,
and their traces and outcomes have grown by the same entries. -/
structure State.Alike (s s' v v' : State) : Prop where
  phase : v'.phase = v.phase
  txq : v'.txq = v.txq
  rxn : v'.rxn = v.rxn
  acc : v'.acc = v.acc
  fmt : v'.fmt = v.fmt
  inputs : v'.inputs = v.inputs
  draws : v'.draws = v.draws
  path : v.fmt = .pr → v'.wreg = v.wreg ∧ v'.sgn = v.sgn
  trace : GrownAlike s.trace s'.trace v.trace v'.trace
  replies : GrownAlike s.replies s'.replies v.replies v'.replies

/-- They stand alike in mid-operation, with no reset to come, and agree in where an interrupt would be taken. -/
structure State.InStep (s s' v v' : State) : Prop extends State.Alike s s' v v' where
  noReset : v.NoReset
  masks : v'.ie = v.ie ∨ Input.interrupt ∉ v.inputs

section
variable {s s' v v' w t : State}

theorem State.Alike.result_eq (h : State.Alike s s' v v') : v'.result = v.result := by
  cases hf : v.fmt with
  | pr =>
    obtain ⟨hw, hg⟩ := h.path hf
    simp [State.result, h.fmt, hf, h.acc, hw, hg]
  | z | p3 | pw | s2 => simp [State.result, h.fmt, hf, h.acc]

theorem State.Alike.ended (h : State.Alike s s' v v') (r : Reply) :
    State.Alike s s' (v.ended r) (v'.ended r) :=
  { h with phase := rfl, txq := rfl, replies := h.replies.snoc r }

theorem State.Alike.complete (h : State.Alike s s' v v') (hq : v.txq = []) :
    State.Alike s s' v.complete v'.complete := by
  rw [complete_eq_ended hq, complete_eq_ended (h.txq.trans hq), h.result_eq]
  exact h.ended _

theorem State.Alike.exchangeFails (h : State.Alike s s' v v') (hq : v.txq ≠ []) :
    State.Alike s s' v.exchangeFails v'.exchangeFails := by
  obtain ⟨b, q, hbq⟩ := List.exists_cons_of_ne_nil hq
  rw [exchangeFails_eq_ended hbq, exchangeFails_eq_ended (h.txq.trans hbq)]
  have htried : State.Alike s s' { v with trace := v.trace ++ [⟨b, none⟩] }
      { v' with trace := v'.trace ++ [⟨b, none⟩] } := { h with trace := h.trace.snoc _ }
  exact htried.ended _

theorem State.InStep.exchanged (h : State.InStep s s' v v') (hq : v.txq ≠ []) (r : Byte) :
    State.InStep s s' (v.exchanged r) (v'.exchanged r) := by
  obtain ⟨b, q, hbq⟩ := List.exists_cons_of_ne_nil hq
  rw [State.exchanged_cons hbq, State.exchanged_cons (h.txq.trans hbq)]
  exact { h with
    txq := rfl
    acc := by simp [h.acc, h.rxn]
    trace := h.trace.snoc _ }

/-- An entry of the script is used up in both runs. -/
theorem State.InStep.script {x : Input} {rest : List Input} (h : State.InStep s s' v v')
    (hin : v.inputs = x :: rest) :
    State.InStep s s' { v with inputs := rest } { v' with inputs := rest } :=
  { h with
    inputs := rfl
    noReset := fun hr => h.noReset (hin ▸ List.mem_cons_of_mem _ hr)
    masks := h.masks.imp id fun hi hr => hi (hin ▸ List.mem_cons_of_mem _ hr) }

/-- Both runs hear the same answer. -/
theorem State.InStep.hears {a : Answer} (h : State.InStep s s' v v') (ha : v.Hears a w) :
    ∃ w', v'.Hears a w' ∧ State.InStep s s' w w' := by
  cases ha with
  | scripted hin => exact ⟨_, .scripted (h.inputs.trans hin), h.script hin⟩
  | free hin ha =>
    exact ⟨_, .free (h.inputs.trans hin) (h.draws ▸ ha), { h with draws := congrArg (· + 1) h.draws }⟩

/-- An interrupt that comes next finds the same `IE` in both runs. -/
theorem State.InStep.ie_eq {rest : List Input} (h : State.InStep s s' v v')
    (hin : v.inputs = .interrupt :: rest) : v'.ie = v.ie :=
  h.masks.resolve_right (by simp [hin])

theorem State.InStep.moves (h : State.InStep s s' v v') (hm : v.Moves w) :
    ∃ w', v'.Moves w' ∧ State.InStep s s' w w' := by
  cases hm with
  | byte hq ha =>
    obtain ⟨u', ha', hu⟩ := h.hears ha
    exact ⟨_, .byte (h.txq ▸ hq) ha', hu.exchanged (ha.txq_eq ▸ hq) _⟩
  | held hq hin hie =>
    exact ⟨_, .held (h.txq ▸ hq) (h.inputs.trans hin) ((h.ie_eq hin).trans hie), { h.script hin with }⟩

theorem State.InStep.ends (h : State.InStep s s' v v') (he : v.Ends t) :
    ∃ t', v'.Ends t' ∧ State.Alike s s' t t' := by
  cases he with
  | done hq => exact ⟨_, .done (h.txq.trans hq), h.complete hq⟩
  | fail hq ha =>
    obtain ⟨u', ha', hu⟩ := h.hears ha
    exact ⟨_, .fail (h.txq ▸ hq) ha', hu.exchangeFails (ha.txq_eq ▸ hq)⟩
  | hang hq ha =>
    obtain ⟨u', ha', -⟩ := h.hears ha
    exact ⟨_, .hang (h.txq ▸ hq) ha', h.toAlike⟩
  | taken hq hin hie =>
    exact ⟨_, .taken (h.txq ▸ hq) (h.inputs.trans hin) ((h.ie_eq hin).trans hie), { h.script hin with }⟩
  | reset hq hin => exact absurd (by simp [hin]) h.noReset

/-- Runs that stand alike in mid-operation end alike. -/
theorem State.InStep.resume (h : State.InStep s s' v v') (ht : v.resume = .next t) :
    ∃ t', v'.resume = .next t' ∧ State.Alike s s' t t' := by
  refine resume_induct (M := fun u => ∃ u', v'.resume = u'.resume ∧ State.InStep s s' u u')
    (Q := fun t => ∃ t', v'.resume = .next t' ∧ State.Alike s s' t t') ?move ?last ⟨v', rfl, h⟩ ht
  case move =>
    rintro u w ⟨u', e, hu⟩ hm
    obtain ⟨w', hm', hw⟩ := hu.moves hm
    exact ⟨w', e.trans hm'.resume_eq, hw⟩
  case last =>
    rintro u t ⟨u', e, hu⟩ he
    obtain ⟨t', he', ht⟩ := hu.ends he
    exact ⟨t', e.trans he'.resume_eq, ht⟩

end

/-! ## From acceptance on -/

/-- The width and the decode path of a parameter read are fixed by the configuration. -/
theorem Begins.path_eq {i : Instr} {s s' : State} {x x' : Transaction} (hb : Begins i s x)
    (hb' : Begins i s' x') (hc : s'.cfg = s.cfg) (hf : i.format = .pr) :
    x'.wreg = x.wreg ∧ x'.sgn = x.sgn := by
  obtain ⟨id, hid, hw⟩ := hb.width (.inr hf)
  obtain ⟨id', hid', hw'⟩ := hb'.width (.inr hf)
  rw [hc] at hid' hw'
  obtain rfl : id = id' := Option.some.inj (hid.symm.trans hid')
  exact ⟨Option.some.inj (hw'.symm.trans hw), (hb'.path hf).trans (hb.path hf).symm⟩

/-- Whether an operation runs with `IE` at 0 is fixed by the configuration and the `IE` it finds. -/
theorem Begins.ie_eq {i : Instr} {s s' : State} {x x' : Transaction} (hb : Begins i s x)
    (hb' : Begins i s' x') (hc : s'.cfg = s.cfg) (hie : s'.ie = s.ie) : x'.ie = x.ie := by
  by_cases h : i = .getStatus ∧ s.cfg.criticalStatus = true
  · rw [(hb.critical h.1 h.2).1, (hb'.critical h.1 (hc ▸ h.2)).1]
  · have hn : i = .getStatus → s.cfg.criticalStatus = false := fun hi => by simpa [hi] using h
    rw [(hb.uncritical hn).1, (hb'.uncritical (hc ▸ hn)).1, hie]

/-- The transactions of one operation begin in step. -/
theorem inStep_begun {i : Instr} {s s' : State} {x x' : Transaction} (hb : Begins i s x) (hb' : Begins i s' x')
    (hx : x'.out = x.out) (hr : s.NoReset) (hc : s'.cfg = s.cfg) (hin : s'.inputs = s.inputs)
    (hd : s'.draws = s.draws) (hie : s'.ie = s.ie ∨ Input.interrupt ∉ s.inputs) :
    State.InStep s s' (s.begun x) (s'.begun x') where
  phase := rfl
  txq := hx
  rxn := by simp [State.begun, State.midway, hb.rxnval, hb'.rxnval, hx]
  acc := by simp [State.begun, State.midway]
  fmt := hb'.fmt.trans hb.fmt.symm
  inputs := hin
  draws := hd
  path hf := hb.path_eq hb' hc (hb.fmt.symm.trans hf)
  trace := by simpa [State.begun, State.midway, events] using GrownAlike.refl s.trace s'.trace
  replies := .refl _ _
  noReset := hr
  masks := hie.imp (hb.ie_eq hb' hc) id

/-- Settles O58: the two transactions begin in step, so they end alike; and a delivery of `InvalidRegister` is
the same in both states. -/
theorem nothingIsRememberedBetweenOperations : Obligations.NothingIsRememberedBetweenOperations := by
  intro i s s' t hs hs' hr hc hin hd hie h
  rcases exec_cases_pair i hs hs' hc with ⟨x, x', hx, hb, hb'⟩ | ⟨e, he, he'⟩ | ⟨r, he, -⟩
  · obtain ⟨t', ht', ha⟩ := (inStep_begun hb hb' hx hr hc hin hd hie).resume (hb.exec_eq ▸ h)
    obtain ⟨ev, htr, htr'⟩ := ha.trace
    obtain ⟨rp, hrp, hrp'⟩ := ha.replies
    exact ⟨t', ev, rp, hb'.exec_eq.trans ht', htr, htr', hrp, hrp', ha.phase, ha.inputs⟩
  · obtain rfl := Host.Outcome.next.inj (he.symm.trans h)
    obtain ⟨hp, -⟩ := hs
    obtain ⟨hp', -⟩ := hs'
    exact ⟨_, [], [.error e], he', by simp, by simp, rfl, rfl, hp'.trans hp.symm, hin⟩
  · simp [he] at h

end Sys2Proof.Machine
end

section
/-! SUPPORT. The packing functions and the registry of 20_memory.md: how many bytes a width takes, which bytes of a
word are sent, which word the bytes received stand for, the mask and the clamps (R52 to R55, R131), and what the
registry gives for an identifier (R61). -/

namespace Sys2Proof.Machine

/-! ## Packing (R52 to R54) -/

/-- Settles O8: the ceiling is the quotient rounded up, and the values follow by width. -/
theorem byteCountIsTheCeiling : Obligations.ByteCountIsTheCeiling := by
  intro w h1 h22
  refine ⟨?_, rfl, ?_⟩
  · have h := Rat.ceil_natCast_div_natCast w 8
    rw [Nat.cast_ofNat] at h
    rw [h, byteCount]
    omega
  · simp only [byteCount]
    omega

/-- The byte that stands before the low `n` bytes of a word is a digit of it in base 256 (R53). -/
theorem byteAbove_toNat (v : Word) (n : Nat) :
    ((v >>> (8 * n)).setWidth 8).toNat = v.toNat / 2 ^ (8 * n) % 256 := by
  simp [Nat.shiftRight_eq_div_pow]

/-- The bytes sent determine the low `8N` bits of the word, and are determined by them (D7). -/
theorem txBytes_eq_iff (v v' : Word) (n : Nat) :
    txBytes v' n = txBytes v n ↔ v'.toNat % 2 ^ (8 * n) = v.toNat % 2 ^ (8 * n) := by
  induction n with
  | zero => simp [Nat.mod_one]
  | succ n ih =>
    have hp : 2 ^ (8 * (n + 1)) = 2 ^ (8 * n) * 256 := by rw [Nat.mul_add, Nat.pow_add]
    rw [txBytes, txBytes, List.cons.injEq, ih, ← BitVec.toNat_inj, byteAbove_toNat, byteAbove_toNat, hp]
    constructor
    · rintro ⟨hhead, htail⟩
      rw [Nat.mod_mul, Nat.mod_mul, hhead, htail]
    · intro h
      constructor
      · rw [← Nat.mod_mul_right_div_self, h, Nat.mod_mul_right_div_self]
      · rw [← Nat.mod_mul_right_mod _ _ 256, h, Nat.mod_mul_right_mod]

/-- Cutting a word to a byte is the mask `0xFF` (R53). -/
theorem setWidth_byte (v : Word) : (v.setWidth 8).setWidth 32 = v &&& 0xFF := by
  have hmask : (v &&& 0xFF).toNat = v.toNat % 2 ^ 8 := mask_toNat v 8 (by decide)
  apply BitVec.eq_of_toNat_eq
  rw [hmask, BitVec.toNat_setWidth, BitVec.toNat_setWidth]
  omega

/-- Settles O9: byte `i` from the end is the word shifted down by `i` bytes and cut to a byte. -/
theorem txBytesListsLowBytesHighFirst : Obligations.TxBytesListsLowBytesHighFirst := by
  intro v n h1 h3
  refine ⟨txBytes_length v n, fun i hi => ⟨(v >>> (8 * i)).setWidth 8, ?_, setWidth_byte _⟩,
    fun v' => (txBytes_eq_iff v v' n).symm⟩
  have hk : n - 1 - i < n := by omega
  have hi' : n - 1 - (n - 1 - i) = i := by omega
  rw [List.getElem?_eq_getElem (by simpa using hk), txBytes_getElem v n _ hk, hi']

/-- One more byte received is one more digit in base 256 (R54). -/
theorem bigEndian_append (rs : List Byte) (r : Byte) :
    bigEndian (rs ++ [r]) = bigEndian rs * 256 + r.toNat := by
  simp [bigEndian]

/-- The number that bytes stand for has no bit above them. -/
theorem bigEndian_lt (rs : List Byte) : bigEndian rs < 2 ^ (8 * rs.length) := by
  induction rs using List.reverseRecOn with
  | nil => simp [bigEndian]
  | append_singleton rs r ih =>
    have hr := r.isLt
    have hp : 2 ^ (8 * (rs ++ [r]).length) = 2 ^ (8 * rs.length) * 256 := by
      rw [List.length_append, List.length_singleton, Nat.mul_add, Nat.pow_add]
    rw [bigEndian_append, hp]
    omega

theorem rxAssemble_toNat {rs : List Byte} (h : rs.length ≤ 3) : (rxAssemble rs).toNat = bigEndian rs := by
  have hlt : bigEndian rs < 2 ^ 32 :=
    (bigEndian_lt rs).trans_le (Nat.pow_le_pow_right (by decide) (by omega))
  rw [rxAssemble, foldl_shiftIn rs h, BitVec.toNat_ofNat, Nat.mod_eq_of_lt hlt]

/-- Settles O10: each byte shifts those before it up; the number they stand for fits in a word. -/
theorem rxAssembleIsBigEndian : Obligations.RxAssembleIsBigEndian := by
  refine ⟨fun a => ?_, fun a b => ?_, fun a b c => ?_, fun rs h => ⟨rxAssemble_toNat h, bigEndian_lt rs⟩⟩
  · simp [rxAssemble, shiftIn]
  · simp [rxAssemble, shiftIn]
  · simp [rxAssemble, shiftIn, BitVec.shiftLeft_or_distrib]

/-! ## The mask and the clamps (R55, R131) -/

theorem mask_getLsbD (v : Word) {w : Nat} (h : w ≤ 32) (k : Nat) :
    (mask v w).getLsbD k = (decide (k < w) && v.getLsbD k) := by
  rw [BitVec.getLsbD, mask_toNat v w h, Nat.testBit_mod_two_pow, BitVec.getLsbD]

theorem clampU_eq (v m : Word) : clampU v m = if v.toNat > m.toNat then m else v := by
  simp [clampU, BitVec.ult]

theorem clampS_eq (v m : Word) : clampS v m = if v.toInt > m.toInt then m else v := by
  simp [clampS, BitVec.slt]

theorem toInt_eq_toNat_of_nonneg {v : Word} (h : 0 ≤ v.toInt) : v.toInt = v.toNat :=
  BitVec.toInt_eq_toNat_of_lt (BitVec.toInt_pos_iff.1 h)

/-- Settles O13: a word that is not negative is the same number signed and unsigned, so the two clamps agree on such
words. -/
theorem maskAndClamps : Obligations.MaskAndClamps := by
  refine ⟨fun v w k _ hw => mask_getLsbD v (by omega) k, clampU_eq, clampS_eq, fun v m hv hm => ?_,
    rfl, rfl, rfl, rfl⟩
  simp only [clampU_eq, clampS_eq, toInt_eq_toNat_of_nonneg hv, toInt_eq_toNat_of_nonneg hm, gt_iff_lt,
    Nat.cast_lt]

/-! ## The registry (R61) -/

/-- The identifiers of a well-formed registry are distinct (R6). -/
theorem wf_nodup {c : Cfg} (h : c.wf = true) : (c.registry.map (·.id)).Nodup := by
  simp only [Cfg.wf, Bool.and_eq_true, decide_eq_true_eq] at h
  exact h.1.1.1.1.2

/-- The registry is a partial map: looking up an entry's identifier finds that entry. -/
theorem entry_of_mem {c : Cfg} (h : c.wf = true) {e : RegEntry} (he : e ∈ c.registry) :
    c.entry e.id = some e := by
  have hsome : (c.entry e.id).isSome = true := List.find?_isSome.2 ⟨e, he, by simp⟩
  obtain ⟨e', he'⟩ := Option.isSome_iff_exists.1 hsome
  obtain ⟨hmem, hid⟩ := entry_mem he'
  rw [he', List.inj_on_of_nodup_map (wf_nodup h) hmem he hid]

theorem entry_eq_none {c : Cfg} {id : Byte} (h : ∀ e ∈ c.registry, e.id ≠ id) : c.entry id = none :=
  List.find?_eq_none.2 fun e he => by simpa using h e he

/-- Settles O11: the lookup finds an identifier's own entry, or none. -/
theorem widthComesFromTheRegistry : Obligations.WidthComesFromTheRegistry := by
  intro c id hwf
  constructor
  · rintro e he rfl
    simp [Cfg.widthOf, Cfg.signedOf, entry_of_mem hwf he]
  · intro h
    simp [Cfg.widthOf, Cfg.signedOf, entry_eq_none h]

end Sys2Proof.Machine
end

section
/-! SUPPORT. A transaction whose exchanges are answered, to its end or to the point where another agent breaks the
contract (20_memory.md R62, R63). -/

namespace Sys2Proof.Machine

/-- What an operation's rule computes is no error (R22 (c)). -/
theorem result_ne_error (s : State) (e : BlockError) : s.result ≠ .error e := by
  cases hf : s.fmt <;> simp [State.result, hf]

/-- An operation whose exchanges are all answered ends with its result, whatever the script holds next. -/
theorem Begins.answered {i : Instr} {s : State} {x : Transaction} (hb : Begins i s x) {rs : List Byte}
    {rest : List Input} (hlen : rs.length = x.out.length) (hin : s.inputs = answers rs rest) :
    exec i s = .next ((s.midway x rs rest).ended (s.midway x rs rest).result) := by
  have hq : (s.midway x rs rest).txq = [] := by simp [State.midway, hlen]
  rw [hb.exec_eq, resume_begun hb.rxn hb.len hin hlen.le, serve_complete hq, complete_eq_ended hq]

/-- Another agent that breaks the contract before an operation's last exchange stops it (R63, R205). -/
theorem Begins.intruded {i : Instr} {s : State} {x : Transaction} (hb : Begins i s x) {rs : List Byte}
    {k : Intrusion} {rest : List Input} (hlen : rs.length < x.out.length)
    (hin : s.inputs = answers rs (.intrusion k :: rest)) : exec i s = .refused k.refusal := by
  have hq : (s.midway x rs (.intrusion k :: rest)).txq ≠ [] := by simp [State.midway, hlen]
  rw [hb.exec_eq, resume_begun hb.rxn hb.len hin hlen.le, serve_intrusion hq]

/-- Settles O7: the operation begins the transaction whose bytes are its encoding, and all of it is answered. -/
theorem operationsSendTheirEncoding : Obligations.OperationsSendTheirEncoding := by
  intro i s bytes rs rest hs hw he hlen hin
  obtain ⟨x, rfl, hb⟩ := begins_encoding hs hw he
  obtain ⟨-, -, -, hwf⟩ := hs
  exact ⟨_, _, hb.answered hlen hin, rfl, rfl, ⟨rfl, rfl, rfl, hwf⟩, rfl, result_ne_error _⟩

/-- Settles O42: the operation begins the transaction whose bytes are its encoding, and a byte of it is still to be
sent when the other agent breaks the contract. -/
theorem intrusionInMidTransactionIsRefused : Obligations.IntrusionInMidTransactionIsRefused := by
  intro i s bytes rs k rest hs hw he hlen hin
  obtain ⟨x, rfl, hb⟩ := begins_encoding hs hw he
  have h := hb.intruded hlen hin
  cases k <;> exact h

end Sys2Proof.Machine
end

section
/-! SUPPORT. The bytes of a word and the word of the bytes, each from the other (20_memory.md R53, R54). -/

namespace Sys2Proof.Machine

/-- The first byte received is the highest digit in base 256 (R54). -/
theorem bigEndian_cons (b : Byte) (bs : List Byte) :
    bigEndian (b :: bs) = b.toNat * 2 ^ (8 * bs.length) + bigEndian bs := by
  induction bs using List.reverseRecOn with
  | nil => simp [bigEndian]
  | append_singleton bs r ih =>
    have hp : 2 ^ (8 * (bs ++ [r]).length) = 2 ^ (8 * bs.length) * 256 := by
      rw [List.length_append, List.length_singleton, Nat.mul_add, Nat.pow_add]
    rw [← List.cons_append, bigEndian_append, bigEndian_append, ih, hp]
    ring

/-- The low bytes of a word are the bytes of the number that its low bits stand for. -/
theorem txBytes_eq_iff_bigEndian (v : Word) (bs : List Byte) :
    txBytes v bs.length = bs ↔ v.toNat % 2 ^ (8 * bs.length) = bigEndian bs := by
  induction bs with
  | nil => simp [bigEndian, Nat.mod_one]
  | cons b bs ih =>
    have hpos : 0 < 2 ^ (8 * bs.length) := by positivity
    have hp : 2 ^ (8 * (b :: bs).length) = 2 ^ (8 * bs.length) * 256 := by
      rw [List.length_cons, Nat.mul_add, Nat.pow_add]
    have hlow := bigEndian_lt bs
    rw [List.length_cons, txBytes, List.cons.injEq, ih, ← BitVec.toNat_inj, byteAbove_toNat,
      ← List.length_cons (a := b), hp, Nat.mod_mul, bigEndian_cons, mul_comm b.toNat]
    constructor
    · rintro ⟨hb, hbs⟩
      rw [hb, hbs, add_comm]
    · intro h
      have hq := congrArg (· / 2 ^ (8 * bs.length)) h
      have hr := congrArg (· % 2 ^ (8 * bs.length)) h
      simp only [Nat.add_mul_div_left _ _ hpos, Nat.mul_add_div hpos, Nat.add_mul_mod_self_left,
        Nat.mul_add_mod, Nat.mod_div_self, Nat.mod_mod, Nat.div_eq_of_lt hlow, Nat.mod_eq_of_lt hlow] at hq hr
      exact ⟨by omega, hr⟩

theorem rxAssemble_txBytes_toNat (v : Word) {n : Nat} (hn : n ≤ 3) :
    (rxAssemble (txBytes v n)).toNat = v.toNat % 2 ^ (8 * n) := by
  have h := (txBytes_eq_iff_bigEndian v (txBytes v n)).1 (by rw [txBytes_length])
  rw [rxAssemble_toNat (by simpa using hn), ← h, txBytes_length]

/-- A word that its low bytes carry whole is read back from them. -/
theorem rxAssemble_txBytes {v : Word} {n : Nat} (hn : n ≤ 3) (hv : v.toNat < 2 ^ (8 * n)) :
    rxAssemble (txBytes v n) = v :=
  BitVec.eq_of_toNat_eq (by rw [rxAssemble_txBytes_toNat v hn, Nat.mod_eq_of_lt hv])

theorem rxAssemble_lt {bs : List Byte} (h : bs.length ≤ 3) : (rxAssemble bs).toNat < 2 ^ (8 * bs.length) :=
  rxAssemble_toNat h ▸ bigEndian_lt bs

/-- A word whose low bits are those of the word received has the bytes received as its low bytes. -/
theorem txBytes_of_rxAssemble {v : Word} {bs : List Byte} (h : bs.length ≤ 3)
    (hv : v.toNat % 2 ^ (8 * bs.length) = (rxAssemble bs).toNat) : txBytes v bs.length = bs :=
  (txBytes_eq_iff_bigEndian v bs).2 (hv.trans (rxAssemble_toNat h))

end Sys2Proof.Machine
end

section
/-! SUPPORT. The opcode byte and the operation it selects, each from the other (30_encoding.md R86 to R91). -/

namespace Sys2Proof

open Machine

/-! ## The operation with its value operand left out -/

/-- What an opcode byte alone tells of an operation: the value operand is 0, and `run` and `goUntil` are the
`runRaw` and `goUntilRaw` whose bytes they share (R94). -/
def Instr.selected : Instr → Instr
  | .setParam id _ => .setParam id 0
  | .runRaw dir _ => .runRaw dir 0
  | .run dir _ => .runRaw dir 0
  | .move dir _ => .move dir 0
  | .goTo _ => .goTo 0
  | .goToDir dir _ => .goToDir dir 0
  | .goUntilRaw action dir _ => .goUntilRaw action dir 0
  | .goUntil action dir _ => .goUntilRaw action dir 0
  | .setPos _ => .setPos 0
  | .setMark _ => .setMark 0
  | .setElPos _ => .setElPos 0
  | i => i

/-! The value operand decides neither the opcode byte nor how many bytes follow it nor whether the operation is
well formed. -/

@[simp] theorem selected_opcodeByte (c : Cfg) (i : Instr) : i.selected.opcodeByte c = i.opcodeByte c := by
  cases i <;> rfl

@[simp] theorem selected_followers (c : Cfg) (i : Instr) : i.selected.followers c = i.followers c := by
  cases i <;> rfl

@[simp] theorem selected_format (i : Instr) : i.selected.format = i.format := by
  cases i <;> rfl

@[simp] theorem selected_wf (i : Instr) : i.selected.wf = i.wf := by
  cases i <;> rfl

/-! ## From the byte to the operation and back -/

/-- A row builds from every byte that fits it a well-formed operation with no value operand whose opcode byte is
that byte. -/
def OpcodeRow.Faithful (c : Cfg) (row : OpcodeRow) : Prop :=
  ∀ b, b &&& row.mask = row.pattern →
    (row.make b).opcodeByte c = b ∧ (row.make b).wf = true ∧ (row.make b).selected = row.make b

/-- The bits of a byte that a mask keeps, and those that it clears, make up the byte. -/
theorem and_or_and_not (b m : Byte) : b &&& m ||| b &&& ~~~m = b := by
  rw [← BitVec.and_or_distrib_left, BitVec.or_not_self, BitVec.and_allOnes]

theorem dirLegal_and_one (b : Byte) : dirLegal (b &&& 1) = true := by
  revert b
  decide

/-- A byte is its bits other than 3 and 0, then its bit 3 as an action flag, then its bit 0 (R86). -/
theorem base_action_dir (b : Byte) :
    b &&& 0xF6 ||| (if ((b >>> 3) &&& 1).toNat > 0 then 0x08 else 0x00) ||| b &&& 1 = b := by
  revert b
  decide

/-! One lemma per kind of row: the whole byte is fixed, bit 0 is a direction, the low bits are an identifier, or
bit 3 is an action flag and bit 0 a direction. -/

section
variable {c : Cfg} {base : Byte}

theorem OpcodeRow.Faithful.whole {i : Instr} (hop : i.opcodeByte c = base) (hwf : i.wf = true)
    (hsel : i.selected = i) : OpcodeRow.Faithful c ⟨0xFF, base, fun _ => i⟩ := by
  rintro b (hb : b &&& BitVec.allOnes 8 = base)
  rw [BitVec.and_allOnes] at hb
  exact ⟨hop.trans hb.symm, hwf, hsel⟩

theorem OpcodeRow.Faithful.dir {f : Byte → Instr} (hop : ∀ d, (f d).opcodeByte c = base ||| d)
    (hwf : ∀ d, (f d).wf = dirLegal d) (hsel : ∀ d, (f d).selected = f d) :
    OpcodeRow.Faithful c ⟨0xFE, base, fun b => f (b &&& 1)⟩ := by
  rintro b (rfl : b &&& 0xFE = base)
  exact ⟨(hop _).trans (and_or_and_not b 0xFE), (hwf _).trans (dirLegal_and_one b), hsel _⟩

theorem OpcodeRow.Faithful.id {f : Byte → Instr} (hop : ∀ id, (f id).opcodeByte c = base ||| id)
    (hwf : ∀ id, (f id).wf = true) (hsel : ∀ id, (f id).selected = f id) :
    OpcodeRow.Faithful c ⟨~~~regField, base, fun b => f (b &&& regField)⟩ := by
  rintro b (rfl : b &&& ~~~regField = base)
  exact ⟨(hop _).trans (and_or_and_not b (~~~regField)), hwf _, hsel _⟩

end

theorem OpcodeRow.Faithful.goUntil (c : Cfg) :
    OpcodeRow.Faithful c ⟨0xF6, c.goUntilBase, fun b => .goUntilRaw ((b >>> 3) &&& 1) (b &&& 1) 0⟩ := by
  rintro b (hb : b &&& 0xF6 = c.goUntilBase)
  exact ⟨by rw [Instr.opcodeByte, ← hb, base_action_dir], dirLegal_and_one b, rfl⟩

theorem opcodeRows_faithful (c : Cfg) : ∀ row ∈ opcodeRows c, row.Faithful c := by
  simp only [opcodeRows, List.forall_mem_cons]
  exact ⟨.whole rfl rfl rfl, .whole rfl rfl rfl, .whole rfl rfl rfl,
    .whole rfl rfl rfl, .whole rfl rfl rfl, .whole rfl rfl rfl,
    .whole rfl rfl rfl, .whole rfl rfl rfl,
    .dir (f := .stepClock) (fun _ => rfl) (fun _ => rfl) (fun _ => rfl),
    .whole rfl rfl rfl,
    .dir (f := fun d => .runRaw d 0) (fun _ => rfl) (fun _ => rfl) (fun _ => rfl),
    .dir (f := fun d => .move d 0) (fun _ => rfl) (fun _ => rfl) (fun _ => rfl),
    .whole rfl rfl rfl,
    .dir (f := fun d => .goToDir d 0) (fun _ => rfl) (fun _ => rfl) (fun _ => rfl),
    .goUntil c,
    .whole rfl rfl rfl, .whole rfl rfl rfl, .whole rfl rfl rfl,
    .whole rfl rfl rfl, .whole rfl rfl rfl,
    .id (f := fun id => .setParam id 0) (fun _ => rfl) (fun _ => rfl) (fun _ => rfl),
    .id (f := .getParam) (fun _ => rfl) (fun _ => rfl) (fun _ => rfl),
    List.forall_mem_nil _⟩

/-- In every configuration the operation that an opcode byte selects is well formed, has no value operand, and has
that opcode byte. -/
theorem decodeOpcode_some {c : Cfg} {b : Byte} {i : Instr} (h : decodeOpcode c b = some i) :
    i.opcodeByte c = b ∧ i.wf = true ∧ i.selected = i := by
  obtain ⟨row, hrow, rfl⟩ := Option.map_eq_some_iff.1 h
  exact opcodeRows_faithful c row (List.mem_of_find?_eq_some hrow) b (by simpa using List.find?_some hrow)

/-! The other way, in the default configuration (R6 (f)). -/

theorem decodeOpcode_setParam {id : Byte} (hfield : id &&& regField = id) (hpos : id ≠ defaultCfg.absPos)
    (hmark : id ≠ defaultCfg.mark) (hel : id ≠ defaultCfg.elPos) :
    decodeOpcode defaultCfg (defaultCfg.setParamBase ||| id) = some (.setParam id 0) := by
  revert id
  decide

theorem decodeOpcode_getParam {id : Byte} (hfield : id &&& regField = id) (hpos : id ≠ defaultCfg.absPos)
    (hmark : id ≠ defaultCfg.mark) :
    decodeOpcode defaultCfg (defaultCfg.getParamBase ||| id) = some (.getParam id) := by
  revert id
  decide

end Sys2Proof
end

section
/-! SUPPORT. A transaction and the operation it stands for, each from the other (30_encoding.md R80 to R93). -/

namespace Sys2Proof

open Machine

/-! ## The bytes after the opcode byte -/

/-- The `n` bytes that follow an operation's opcode byte (R80). -/
def Instr.followingBytes (c : Cfg) (i : Instr) (n : Nat) : List Byte :=
  match i.format with
  | .pr => List.replicate n c.dummy
  | .s2 => List.replicate n c.dummy
  | .p3 => txBytes i.sentWord n
  | .pw => txBytes i.sentWord n
  | .z => []

theorem encode_eq {c : Cfg} {i : Instr} {n : Nat} (h : i.followers c = some n) :
    encode c i = some (i.opcodeByte c :: i.followingBytes c n) := by
  rw [encode, h]
  rfl

theorem followers_z {c : Cfg} {i : Instr} (h : i.format = .z) : i.followers c = some 0 := by
  cases i <;> cases h <;> rfl

theorem followers_of_regId {c : Cfg} {i : Instr} {id : Byte} (h : i.regId c = some id) :
    i.followers c = (c.widthOf id).map byteCount := by
  rw [Instr.followers, h]

/-- No more than 3 bytes follow an opcode byte (R6, R80). -/
theorem followers_le {c : Cfg} (hc : c.wf = true) {i : Instr} {n : Nat} (h : i.followers c = some n) : n ≤ 3 := by
  rw [Instr.followers] at h
  split at h
  · obtain ⟨w, hw, rfl⟩ := Option.map_eq_some_iff.1 h
    obtain ⟨-, h22⟩ := widthOf_range hc hw
    exact (byteCount_spec w 3).2 (by omega)
  · cases hf : i.format <;> simp [hf, cmdPayloadBytes, statusBytes] at h <;> omega

theorem followingBytes_length {c : Cfg} {i : Instr} {n : Nat} (h : i.followers c = some n) :
    (i.followingBytes c n).length = n := by
  cases hf : i.format <;> simp only [Instr.followingBytes, hf, List.length_replicate, txBytes_length]
  rw [followers_z hf] at h
  exact Option.some.inj h

/-! ## Cutting a transaction from a stream (R92) -/

/-- The decoder takes the opcode byte's operation, and then the bytes that follow it. -/
theorem decode_cons {c : Cfg} {b : Byte} {i j : Instr} {n : Nat} {bs rest : List Byte}
    (hb : decodeOpcode c b = some i) (hn : i.followers c = some n) (hlen : bs.length = n)
    (hj : i.withFollowers c bs = .ok j) : decode c (b :: bs ++ rest) = .ok (j, rest) := by
  subst hlen
  simp [decode, hb, hn, hj]

/-- Whatever the decoder reads, it read in that way. -/
theorem decode_ok {c : Cfg} {bytes rest : List Byte} {j : Instr} (h : decode c bytes = .ok (j, rest)) :
    ∃ b bs i, bytes = b :: bs ++ rest ∧ decodeOpcode c b = some i ∧ i.followers c = some bs.length ∧
      i.withFollowers c bs = .ok j := by
  unfold decode at h
  split at h
  · cases h
  next b tail =>
    split at h
    · cases h
    next i hb =>
      split at h
      · cases h
      next n hn =>
        split at h
        · cases h
        next hlen =>
          split at h
          next j' hj =>
            cases h
            refine ⟨b, tail.take n, i, by simp, hb, ?_, hj⟩
            rw [hn, List.length_take_of_le (by omega)]
          · cases h

/-! ## The position operand (R135, log 16, 36) -/

theorem or_topByte_toNat {p : Word} (hp : p.toNat < 2 ^ 24) :
    (p ||| 0xFF000000).toNat = p.toNat + 0xFF000000 := by
  have h := Nat.two_pow_add_eq_or_of_lt hp 0xFF
  rw [BitVec.toNat_or, Nat.or_comm, add_comm]
  exact h.symm

theorem gotoOperand_toNat {p : Word} (hp : p.toNat < 2 ^ 24) :
    (gotoOperand p).toNat = if p.toNat ≤ 0x3FFFFF then p.toNat else p.toNat + 0xFF000000 := by
  have hmax : maxGotoPos.ult p = decide (0x3FFFFF < p.toNat) := rfl
  simp only [gotoOperand, hmax, decide_eq_true_eq, ← not_le, ite_not]
  split
  · rfl
  · exact or_topByte_toNat hp

/-- The signed clamp lets a position up to the maximum out, and a negative one. -/
theorem clampS_position {v : Word} (h : v.toNat ≤ 0x3FFFFF ∨ 2 ^ 31 ≤ v.toNat) : clampS v maxGotoPos = v := by
  have hmax : maxGotoPos.toInt = 0x3FFFFF := rfl
  rw [clampS_eq, if_neg]
  rw [hmax, BitVec.toInt_eq_toNat_cond]
  have := v.isLt
  split <;> omega

theorem clampU_of_le {v m : Word} (h : v.toNat ≤ m.toNat) : clampU v m = v := by
  rw [clampU_eq, if_neg (by omega)]

/-! ## The operation that its opcode byte and payload give (R93) -/

/-- What a payload makes of a selected operation is that operation but for the value operand, and sends that
payload. -/
theorem withPayload_ok {i j : Instr} {p : Word} (hi : i.selected = i) (hf : i.format = .p3 ∨ i.format = .pw)
    (hp : p.toNat < 2 ^ 24) (h : i.withPayload p = .ok j) :
    j.selected = i ∧ j.sentWord.toNat % 2 ^ 24 = p.toNat := by
  have hgoto : (clampS (gotoOperand p) maxGotoPos).toNat % 2 ^ 24 = p.toNat := by
    have hpos := gotoOperand_toNat hp
    rw [clampS_position (by rw [hpos]; split <;> omega), hpos]
    split <;> omega
  have hclamp {m : Word} (hm : ¬ m.ult p = true) : clampU p m = p := by
    simp [clampU, hm]
  have hmod := Nat.mod_eq_of_lt hp
  cases i <;> simp only [Instr.format, reduceCtorEq, or_self] at hf <;>
    simp only [Instr.selected, Instr.withPayload, reduceCtorEq] at hi h
  case runRaw | move | goUntilRaw =>
    split at h
    · cases h
    next hm =>
      cases h
      exact ⟨hi, by rw [Instr.sentWord, hclamp hm, hmod]⟩
  case goTo | goToDir =>
    cases h
    exact ⟨hi, hgoto⟩
  case setParam | setPos | setMark | setElPos =>
    cases h
    exact ⟨hi, hmod⟩

/-- What the bytes after the opcode byte make of a selected operation is that operation but for the value operand,
and those bytes are its own. -/
theorem withFollowers_ok {c : Cfg} {i j : Instr} {bs : List Byte} (hi : i.selected = i)
    (hn : i.followers c = some bs.length) (h3 : bs.length ≤ 3) (h : i.withFollowers c bs = .ok j) :
    j.selected = i ∧ j.followingBytes c bs.length = bs := by
  have hread (h : (if bs.all (· == c.dummy) then .ok i else .error .notDummy : Except DecodeError Instr) = .ok j) :
      j = i ∧ List.replicate bs.length c.dummy = bs := by
    split at h
    next hd =>
      cases h
      exact ⟨rfl, (List.eq_replicate_iff.2 ⟨rfl, by simpa using hd⟩).symm⟩
    · cases h
  have hwrite (hf : i.format = .p3 ∨ i.format = .pw) (h : i.withPayload (rxAssemble bs) = .ok j) :
      j.selected = i ∧ txBytes j.sentWord bs.length = bs := by
    have hp := rxAssemble_lt h3
    have hpow : 2 ^ (8 * bs.length) ∣ 2 ^ 24 := Nat.pow_dvd_pow 2 (by omega)
    obtain ⟨hsel, hsent⟩ := withPayload_ok hi hf (hp.trans_le (Nat.le_of_dvd (by decide) hpow)) h
    refine ⟨hsel, txBytes_of_rxAssemble h3 ?_⟩
    rw [← Nat.mod_mod_of_dvd _ hpow, hsent, Nat.mod_eq_of_lt hp]
  cases hf : i.format <;> simp only [Instr.withFollowers, hf] at h
  case z =>
    cases h
    rw [followers_z hf, Option.some.injEq, eq_comm, List.length_eq_zero_iff] at hn
    exact ⟨hi, by simp [Instr.followingBytes, hf, hn]⟩
  case pr | s2 =>
    obtain ⟨rfl, hbs⟩ := hread h
    exact ⟨hi, by simpa only [Instr.followingBytes, hf] using hbs⟩
  case p3 | pw =>
    obtain ⟨hsel, hbs⟩ := hwrite (by simp [hf]) h
    rw [← hsel, selected_format] at hf
    exact ⟨hsel, by simpa only [Instr.followingBytes, hf] using hbs⟩

/-- In every well-formed configuration, what the decoder reads is a well-formed operation whose transaction is what
it consumed. -/
theorem encode_of_decode {c : Cfg} (hc : c.wf = true) {bytes rest : List Byte} {i : Instr}
    (h : decode c bytes = .ok (i, rest)) :
    i.wf = true ∧ ∃ sent, encode c i = some sent ∧ bytes = sent ++ rest := by
  obtain ⟨b, bs, k, rfl, hb, hn, hi⟩ := decode_ok h
  obtain ⟨hop, hwf, hk⟩ := decodeOpcode_some hb
  obtain ⟨rfl, hbs⟩ := withFollowers_ok hk hn (followers_le hc hn) hi
  rw [selected_opcodeByte] at hop
  rw [selected_wf] at hwf
  rw [selected_followers] at hn
  exact ⟨hwf, _, encode_eq hn, by rw [hop, hbs]⟩

theorem defaultCfg_wf : defaultCfg.wf = true := by decide

/-- Settles O6: the default configuration is well formed. -/
theorem decodedTransactionsEncodeBack : Obligations.DecodedTransactionsEncodeBack :=
  fun _ _ _ => encode_of_decode defaultCfg_wf

/-! ## The operations that their transaction gives back -/

/-- The opcode byte of an operation that is `busExact` selects it. -/
theorem decodeOpcode_opcodeByte {i : Instr} (h : i.busExact defaultCfg = true) :
    decodeOpcode defaultCfg (i.opcodeByte defaultCfg) = some i.selected := by
  cases i <;> simp only [Instr.busExact, Instr.wf, Instr.dir?, Bool.and_eq_true, bne_iff_ne, beq_iff_eq,
    decide_eq_true_eq, Bool.and_false, Bool.false_eq_true] at h <;> simp only [Instr.opcodeByte, Instr.selected]
  case setParam id v =>
    obtain ⟨-, ⟨⟨⟨hfield, hpos⟩, hmark⟩, hel⟩, -⟩ := h
    exact decodeOpcode_setParam hfield hpos hmark hel
  case getParam id =>
    obtain ⟨-, ⟨⟨hfield, hpos⟩, hmark⟩, -⟩ := h
    exact decodeOpcode_getParam hfield hpos hmark
  case goUntilRaw action dir v =>
    obtain ⟨hdir, haction, -⟩ := h
    have haction' : action = 0 ∨ action = 1 := by
      simp only [← BitVec.toNat_inj]
      exact Nat.le_one_iff_eq_zero_or_eq_one.1 haction
    rcases haction' with rfl | rfl <;> rcases (dirLegal_iff dir).1 hdir with rfl | rfl <;> rfl
  case runRaw dir _ | move dir _ | goToDir dir _ | stepClock dir =>
    rcases (dirLegal_iff dir).1 h.1 with rfl | rfl <;> rfl
  all_goals rfl

/-- The position operand is read back from its low bytes (log 16, 36). -/
theorem gotoOperand_sent {v : Word} (h : v.toNat ≤ 0x3FFFFF ∨ 0xFF400000 ≤ v.toNat) :
    gotoOperand (rxAssemble (txBytes (clampS v maxGotoPos) 3)) = v := by
  have hv := v.isLt
  have hp := rxAssemble_txBytes_toNat v (n := 3) le_rfl
  rw [clampS_position (by omega)]
  apply BitVec.eq_of_toNat_eq
  rw [gotoOperand_toNat (by omega), hp]
  split <;> omega

/-- An operand up to the command's maximum is read back from its low bytes, which the decoder then accepts. -/
theorem clampU_sent (f : Word → Instr) {v m p : Word} (hv : v.toNat ≤ m.toNat) (hm : m.toNat < 2 ^ 24)
    (hp : p = rxAssemble (txBytes (clampU v m) 3)) :
    (if m.ult p then .error (.overMaximum p) else .ok (f p) : Except DecodeError Instr) = .ok (f v) := by
  rw [clampU_of_le hv, rxAssemble_txBytes le_rfl (hv.trans_lt hm)] at hp
  rw [hp, if_neg (by simpa [BitVec.ult] using hv)]

/-- The payload that an exact operation sends gives it back. -/
theorem withPayload_sent {i : Instr} {n : Nat} (h : i.busExact defaultCfg = true)
    (hf : i.format = .p3 ∨ i.format = .pw) (hn : i.followers defaultCfg = some n) :
    i.selected.withPayload (rxAssemble (txBytes i.sentWord n)) = .ok i := by
  have hword {v : Word} (hv : v.toNat < 2 ^ (8 * n)) : rxAssemble (txBytes v n) = v :=
    rxAssemble_txBytes (followers_le defaultCfg_wf hn) hv
  cases i <;> simp only [Instr.format, reduceCtorEq, or_self] at hf <;>
    simp only [Instr.busExact, Instr.wf, Instr.dir?, Bool.and_eq_true, Bool.or_eq_true, decide_eq_true_eq,
      Bool.and_false, Bool.false_eq_true, true_and] at h <;>
    simp only [Instr.selected, Instr.sentWord, Instr.withPayload]
  case runRaw dir v =>
    cases hn
    exact clampU_sent (.runRaw dir) h.2 (by decide) rfl
  case move dir v =>
    cases hn
    exact clampU_sent (.move dir) h.2 (by decide) rfl
  case goUntilRaw action dir v =>
    cases hn
    exact clampU_sent (.goUntilRaw action dir) h.2.2 (by decide) rfl
  case goTo =>
    cases hn
    rw [cmdPayloadBytes, gotoOperand_sent h]
  case goToDir =>
    cases hn
    rw [cmdPayloadBytes, gotoOperand_sent h.2]
  case setParam | setElPos =>
    rw [followers_of_regId rfl] at hn
    obtain ⟨w, hw, rfl⟩ := Option.map_eq_some_iff.1 hn
    simp only [hw, decide_eq_true_eq] at h
    rw [hword (by tauto)]
  case setPos | setMark =>
    cases hn
    rw [hword h]

theorem withFollowers_sent {i : Instr} {n : Nat} (h : i.busExact defaultCfg = true)
    (hn : i.followers defaultCfg = some n) :
    i.selected.withFollowers defaultCfg (i.followingBytes defaultCfg n) = .ok i := by
  cases hf : i.format <;> simp only [Instr.withFollowers, Instr.followingBytes, selected_format, hf]
  case p3 | pw => exact withPayload_sent h (by simp [hf]) hn
  case z => cases i <;> cases hf <;> rfl
  case pr | s2 => cases i <;> cases hf <;> simp [Instr.selected]

/-- An exact operation's identifier, where it has one, is in the registry. -/
theorem busExact_followers {i : Instr} (h : i.busExact defaultCfg = true) :
    ∃ n, i.followers defaultCfg = some n := by
  cases i
  case setParam id _ | getParam id =>
    cases hw : defaultCfg.widthOf id with
    | none => simp [Instr.busExact, hw] at h
    | some w => exact ⟨byteCount w, by rw [followers_of_regId rfl, hw, Option.map_some]⟩
  all_goals exact ⟨_, rfl⟩

/-- Settles O5: the opcode byte selects the operation, and the bytes that follow give its value operand. -/
theorem transactionsDecodeBack : Obligations.TransactionsDecodeBack := by
  intro i rest h
  obtain ⟨n, hn⟩ := busExact_followers h
  exact ⟨_, encode_eq hn, decode_cons (decodeOpcode_opcodeByte h) (by rwa [selected_followers])
    (followingBytes_length hn) (withFollowers_sent h hn)⟩

end Sys2Proof
end

section
/-! SUPPORT. The opcode byte bit by bit, and the records that the host presents and receives (30_encoding.md R86 to
R88, R95, R96). -/

namespace Sys2Proof.Machine

/-! ## The opcode byte (R86 to R88) -/

/-- A legal direction has no bit but bit 0 (R87). -/
theorem dirLegal_getLsbD {dir : Byte} (h : dirLegal dir = true) {k : Nat} (hk : k < 8) :
    dir.getLsbD k = (k == 0 && dir.getLsbD 0) := by
  rcases (dirLegal_iff dir).1 h with rfl | rfl <;> revert k <;> decide

/-- The action flag is bit 3, and 1 for every action but 0 (R88). -/
theorem actFlag_getLsbD (action : Byte) {k : Nat} (hk : k < 8) :
    (if action.toNat > 0 then 0x08 else 0x00 : Byte).getLsbD k = (k == 3 && decide (action ≠ 0)) := by
  by_cases ha : action = 0
  · simp [ha]
  · rw [if_pos (Nat.pos_of_ne_zero fun h => ha (BitVec.eq_of_toNat_eq h))]
    revert k
    simp only [ha, ne_eq, not_false_eq_true, decide_true, Bool.and_true]
    decide

/-- Settles O12: the byte is the base, the action flag and the direction OR'd together. -/
theorem opcodeByteHasActAndDir : Obligations.OpcodeByteHasActAndDir := by
  intro base action dir hdir k hk
  have hlegal := dirLegal_of hdir
  rw [opcode_act base action dir hlegal, BitVec.getLsbD_or, BitVec.getLsbD_or, actFlag_getLsbD action hk,
    dirLegal_getLsbD hlegal hk]

/-! ## The request record (R95) -/

theorem decodeRequest_encodeRequest (i : Instr) : decodeRequest (encodeRequest i) = .ok i := by
  cases i <;> rfl

theorem decodeRequest_unknown {r : Request} (h : 24 ≤ r.op) : decodeRequest r = .error (.operationNumber r.op) := by
  obtain ⟨op, id, action, dir, value, fvalue⟩ := r
  obtain ⟨k, rfl⟩ := Nat.exists_eq_add_of_le' h
  rfl

theorem hostStep_unknown {s : State} {r : Request} {rest : List HostAction} {e : DecodeError}
    (hh : s.host = .request r :: rest) (hd : decodeRequest r = .error e) :
    hostStep s = .refused (.operationNumber r.op) := by
  simp [hostStep, hh, hd]

/-- Settles O3: the 24 records are distinct, and no other number is one of theirs. -/
theorem requestRecordsDecodeBack : Obligations.RequestRecordsDecodeBack :=
  ⟨decodeRequest_encodeRequest, fun _ _ _ hp hh hop =>
    (step_idle hp).trans (hostStep_unknown hh (decodeRequest_unknown hop))⟩

/-! ## Written-out transactions (R90) -/

/-- Settles O4: the decoder is run on each. -/
theorem writtenOutTransactionsDecode : Obligations.WrittenOutTransactionsDecode :=
  ⟨rfl, rfl, rfl, rfl, rfl, rfl, rfl, rfl, rfl⟩

/-! ## The response record (R96, R194) -/

/-- Settles O60: the three codes are those of the outcomes without an error and of the two errors. -/
theorem responseCodes : Obligations.ResponseCodes := by
  refine ⟨fun r => ?_, fun v => rfl⟩
  cases r with
  | ok => simp [Reply.response]
  | value v => simp [Reply.response]
  | error e => cases e <;> simp [Reply.response]

end Sys2Proof.Machine
end

section
/-! SUPPORT. What an operation carries out that begins a transaction, and what one does whose identifier is not in
the registry; the parameter accesses (40_param_codec.md R111, R112). -/

namespace Sys2Proof.Machine

/-- An operation that leaves `IE` alone carries out the transaction it begins. -/
theorem Begins.performs {i : Instr} {s : State} {x : Transaction} {reply : List Byte → Reply} (hb : Begins i s x)
    (hi : i ≠ .getStatus) (hres : ∀ rs rest, rs.length = x.out.length → (s.midway x rs rest).result = reply rs) :
    Performs i s x reply :=
  have hie := hb.uncritical fun h => absurd h hi
  performs_of_begun hb.rxn hb.len (.inl hie.symm) hb.exec_eq hres

/-- An identifier that is not in the registry: `InvalidRegister`, and no exchange (R191). -/
theorem exec_unregistered {i : Instr} {s : State} {id : Byte} (hs : s.Ready) (hw : i.wf = true)
    (hid : i.regId s.cfg = some id) (hn : s.cfg.widthOf id = none) :
    exec i s = .next { s with replies := s.replies ++ [.error (.invalidRegister id)], undelivered := false } := by
  have he : encode s.cfg i = none := by rw [encode, followers_of_regId hid, hn]; rfl
  rcases exec_cases i hs with ⟨-, bytes, x, hb, -⟩ | ⟨-, -, -, id', hid', h⟩ | ⟨hw', -⟩
  · simp [he] at hb
  · rwa [Option.some.inj (hid'.symm.trans hid)] at h
  · simp [hw] at hw'

theorem mask_ofNat (n : Nat) {w : Nat} (hw : w ≤ 32) : mask (BitVec.ofNat 32 n) w = BitVec.ofNat 32 (n % 2 ^ w) := by
  apply BitVec.eq_of_toNat_eq
  have hlt : n % 2 ^ w < 2 ^ 32 :=
    (Nat.mod_lt n (by positivity)).trans_le (Nat.pow_le_pow_right (by decide) hw)
  rw [mask_toNat _ w hw, BitVec.toNat_ofNat, BitVec.toNat_ofNat, Nat.mod_mod_of_dvd _ (Nat.pow_dvd_pow 2 hw),
    Nat.mod_eq_of_lt hlt]

/-- Settles O16: the operation begins a parameter write, which has no value; or its identifier is not in the
registry. -/
theorem setParamWritesTheParameter : Obligations.SetParamWritesTheParameter := by
  refine fun s id value hs => ⟨fun w hw => ?_, exec_unregistered (i := .setParam id value) hs rfl rfl⟩
  have hexec : exec (.setParam id value) s = writeParam id value s := whenIdle_ready hs _
  exact (begins_pw hs rfl rfl hw hexec).performs (by simp) fun _ _ _ => rfl

/-- Settles O17: the operation begins a parameter read, whose value is the masked response; or its identifier is not
in the registry. -/
theorem getParamReadsTheParameter : Obligations.GetParamReadsTheParameter := by
  refine fun s id hs => ⟨fun w hw => ?_, exec_unregistered (i := .getParam id) hs rfl rfl⟩
  have hexec : exec (.getParam id) s = readParam id false s := whenIdle_ready hs _
  have ⟨_, _, _, hwf⟩ := hs
  obtain ⟨-, h22⟩ := widthOf_range hwf hw
  refine (begins_pr hs rfl rfl (by simp) hw hexec).performs (by simp) fun rs rest _ => ?_
  simp [State.result, State.midway, State.paramRead, mask_ofNat _ (show w ≤ 32 by omega)]

end Sys2Proof.Machine
end

section
/-! SUPPORT. The sign extension of the 22-bit registers and the round trip of a parameter (40_param_codec.md R113,
R114). -/

namespace Sys2Proof.Machine

/-! ## The sign extension from bit 21 (R114) -/

theorem getLsbD_21 {v : Word} (h : v.toNat < 2 ^ 22) : v.getLsbD 21 = decide (2 ^ 21 ≤ v.toNat) := by
  rw [BitVec.getLsbD, Nat.testBit_eq_decide_div_mod_eq, decide_eq_decide]
  omega

theorem signExt22_of_bit {v : Word} (h : v.getLsbD 21 = true) : signExt22 v = v ||| 0xFFC00000 := if_pos h

theorem signExt22_of_not_bit {v : Word} (h : v.getLsbD 21 = false) : signExt22 v = v :=
  if_neg (h ▸ Bool.false_ne_true)

/-- On a word below `2^22` the OR constant shares no bit with the word, so setting its bits adds it. -/
theorem or_upperBits_toNat {v : Word} (h : v.toNat < 2 ^ 22) :
    (v ||| 0xFFC00000).toNat = v.toNat + (2 ^ 32 - 2 ^ 22) := by
  rw [BitVec.toNat_or, Nat.or_comm, add_comm]
  exact (Nat.two_pow_add_eq_or_of_lt h 1023).symm

theorem signExt22_toInt {v : Word} (h : v.toNat < 2 ^ 22) : (signExt22 v).toInt = signed22 v.toNat := by
  have hbit := getLsbD_21 h
  by_cases hlt : v.toNat < 2 ^ 21
  · rw [signExt22_of_not_bit (hbit.trans (decide_eq_false (by omega))), signed22, if_pos hlt,
      BitVec.toInt_eq_toNat_of_lt (by omega)]
  · rw [signExt22_of_bit (hbit.trans (decide_eq_true (by omega))), signed22, if_neg hlt,
      BitVec.toInt_eq_toNat_cond, or_upperBits_toNat h]
    omega

theorem signExtend_toInt (v : Word) :
    ((v.extractLsb' 0 22).signExtend 32).toInt = signed22 (v.toNat % 2 ^ 22) := by
  rw [BitVec.toInt_signExtend_of_le (by decide), BitVec.toInt_eq_toNat_cond, BitVec.extractLsb'_toNat,
    Nat.shiftRight_zero, signed22]
  omega

/-- Both stand for the same integer. -/
theorem signExt22_eq_signExtend {v : Word} (h : v.toNat < 2 ^ 22) :
    signExt22 v = (v.extractLsb' 0 22).signExtend 32 :=
  BitVec.eq_of_toInt_eq (by rw [signExt22_toInt h, signExtend_toInt, Nat.mod_eq_of_lt h])

theorem signed22_range {n : Nat} (h : n < 2 ^ 22) : -2097152 ≤ signed22 n ∧ signed22 n ≤ 2097151 := by
  unfold signed22
  omega

/-- Settles O15: the sign-extended word stands for the 22-bit two's-complement number of the word. -/
theorem signExtensionFromBit21 : Obligations.SignExtensionFromBit21 := by
  intro v h
  have hint := signExt22_toInt h
  obtain ⟨hlo, hhi⟩ := signed22_range h
  exact ⟨hint, hint ▸ hlo, hint ▸ hhi, signExt22_eq_signExtend h, signExt22_of_bit, signExt22_of_not_bit⟩

/-! ## The round trip (R113) -/

theorem mask_eq_self {v : Word} {w : Nat} (hw : w ≤ 32) (h : v.toNat < 2 ^ w) : mask v w = v :=
  BitVec.eq_of_toNat_eq (by rw [mask_toNat v w hw, Nat.mod_eq_of_lt h])

/-- The bytes sent carry the low `8 * ByteCount(W)` bits, and `W` is no more than that. -/
theorem mask_rxAssemble_txBytes (v : Word) {w : Nat} (hw : w ≤ 22) :
    mask (rxAssemble (txBytes v (byteCount w))) w = mask v w := by
  have hcount : byteCount w ≤ 3 := (byteCount_spec w 3).2 (by omega)
  have hbits : w ≤ 8 * byteCount w := (byteCount_spec w _).1 le_rfl
  have hw32 : w ≤ 32 := by omega
  apply BitVec.eq_of_toNat_eq
  rw [mask_toNat _ w hw32, mask_toNat v w hw32, rxAssemble_txBytes_toNat v hcount,
    Nat.mod_mod_of_dvd _ (Nat.pow_dvd_pow 2 hbits)]

/-- Masking meets the premise of the sign extension, so on a masked word it needs none (R114). -/
theorem signExt22_mask_toInt (v : Word) : (signExt22 (mask v 22)).toInt = signed22 (v.toNat % 2 ^ 22) := by
  have hmask := mask_toNat v 22 (by decide)
  rw [signExt22_toInt (by omega), hmask]

/-- The low 22 bits of a word that is a 22-bit signed number stand for that number. -/
theorem signed22_mod {v : Word} (hlo : -2 ^ 21 ≤ v.toInt) (hhi : v.toInt < 2 ^ 21) :
    signed22 (v.toNat % 2 ^ 22) = v.toInt := by
  have hint := BitVec.toInt_eq_toNat_cond v
  unfold signed22
  omega

/-- Settles O14: the mask keeps only bits that the bytes carry, and on a signed register the sign extension restores
the rest. -/
theorem parameterRoundTrip : Obligations.ParameterRoundTrip := by
  refine ⟨fun v w _ hw => ⟨mask_rxAssemble_txBytes v hw, fun hv => ?_⟩, fun v hlo hhi => ?_⟩
  · rw [mask_rxAssemble_txBytes v hw, mask_eq_self (by omega) hv]
  · rw [mask_rxAssemble_txBytes v le_rfl]
    exact BitVec.eq_of_toInt_eq ((signExt22_mask_toInt v).trans (signed22_mod hlo hhi))

end Sys2Proof.Machine
end

section
/-! SUPPORT. The motion commands (41_motion_commands.md): the transaction of an operation with a 3-byte payload, the
refusal of its direction, and the bound on its payload (R130 to R140). -/

namespace Sys2Proof.Machine

/-! ## What a command without a response carries out -/

/-- A command of the opcode alone or with a 3-byte payload begins a plain transaction: only its bytes are its own. -/
theorem Begins.eq_plain {i : Instr} {s : State} {x : Transaction} (hb : Begins i s x)
    (hf : i.format = .z ∨ i.format = .p3) : x = s.plain i.format x.out := by
  have hpw : i.format ≠ .pw := by rcases hf with h | h <;> simp [h]
  have hpr : i.format ≠ .pr := by rcases hf with h | h <;> simp [h]
  have hrxn : x.rxn = 0 := by rcases hf with h | h <;> rw [hb.rxnval, h] <;> rfl
  obtain ⟨hie, hies⟩ := hb.uncritical (by rintro rfl; simp [Instr.format] at hf)
  obtain ⟨out, fmt, rxn, wreg, sgn, ie, ies⟩ := x
  rw [State.plain, Transaction.mk.injEq]
  exact ⟨rfl, hb.fmt, hrxn, hb.wfix hpw hpr, hb.sfix hpr, hie, hies⟩

theorem followers_p3 {c : Cfg} {i : Instr} (h : i.format = .p3) : i.followers c = some 3 := by
  cases i <;> cases h <;> rfl

/-- The encoding of a motion command: the opcode byte and the low 3 bytes of the clamped value (R130). -/
theorem encode_p3 {c : Cfg} {i : Instr} (h : i.format = .p3) :
    encode c i = some (i.opcodeByte c :: txBytes i.sentWord 3) := by
  rw [encode_eq (followers_p3 h), Instr.followingBytes, h]

/-- A well-formed motion command sends its opcode byte and the low 3 bytes of its clamped value, and has no value. -/
theorem performs_p3 {i : Instr} {s : State} {opc : Byte} {p : Word} (hs : s.Ready) (hf : i.format = .p3)
    (hw : i.wf = true) (hop : i.opcodeByte s.cfg = opc) (hp : i.sentWord = p) :
    Performs i s (s.plain .p3 (opc :: lowBytes 3 p)) (fun _ => .ok) := by
  obtain ⟨x, hx, hb⟩ := begins_encoding hs hw (encode_p3 hf)
  have hplain : x = s.plain .p3 (opc :: lowBytes 3 p) := by
    rw [hb.eq_plain (.inr hf), hf, hx, hop, hp, lowBytes_eq p (by decide)]
  subst hplain
  exact hb.performs (by rintro rfl; cases hf) fun _ _ _ => rfl

/-- A direction with a bit other than bit 0 set is refused, whatever the operation (R87). -/
theorem exec_illegalDirection {i : Instr} {s : State} {dir : Byte} (hs : s.Ready) (hd : i.dir? = some dir)
    (hdir : dirLegal dir = false) : exec i s = .refused (.directionBits dir) := by
  have hw : i.wf = false := by rw [Instr.wf, hd]; exact hdir
  rcases exec_cases i hs with ⟨hw', -⟩ | ⟨hw', -⟩ | ⟨-, dir', hd', h⟩
  · simp [hw] at hw'
  · simp [hw] at hw'
  · rwa [Option.some.inj (hd'.symm.trans hd)] at h

/-- A motion command with a direction, whether the direction is legal or not. -/
theorem directed_p3 {i : Instr} {s : State} {dir opc : Byte} {p : Word} (hs : s.Ready) (hf : i.format = .p3)
    (hd : i.dir? = some dir) (hop : i.opcodeByte s.cfg = opc) (hp : i.sentWord = p) :
    (dir.extractLsb' 1 7 = 0 → Performs i s (s.plain .p3 (opc :: lowBytes 3 p)) (fun _ => .ok)) ∧
    (dir.extractLsb' 1 7 ≠ 0 → exec i s = .refused (.directionBits dir)) := by
  have hwf : i.wf = dirLegal dir := by rw [Instr.wf, hd]
  exact ⟨fun hlegal => performs_p3 hs hf (hwf.trans (dirLegal_of hlegal)) hop hp,
    fun hillegal => exec_illegalDirection hs hd (dirIllegal_of hillegal)⟩

/-! ## Each command with its own base and clamp (R132 to R138) -/

/-- Settles O18: a motion command with a direction, its speed clamped as unsigned. -/
theorem runRawSendsTheClampedSpeed : Obligations.RunRawSendsTheClampedSpeed := by
  intro s dir speed hs
  exact directed_p3 (i := .runRaw dir speed) hs rfl rfl rfl (clampU_eq speed maxRunSpeed)

/-- Settles O19: a motion command with a direction, the converted speed clamped as unsigned. -/
theorem runSendsTheClampedConversion : Obligations.RunSendsTheClampedConversion := by
  rintro s dir f _ hs rfl
  exact directed_p3 (i := .run dir f) hs rfl rfl rfl (clampU_eq _ maxRunSpeed)

/-- Settles O20: a motion command with a direction, its step count clamped as unsigned. -/
theorem moveSendsTheClampedStepCount : Obligations.MoveSendsTheClampedStepCount := by
  intro s dir steps hs
  exact directed_p3 (i := .move dir steps) hs rfl rfl rfl (clampU_eq steps maxMoveSteps)

/-- Settles O21: a motion command without a direction, so never refused for one, its position clamped as signed. -/
theorem goToSendsTheSignedClampedPosition : Obligations.GoToSendsTheSignedClampedPosition := by
  intro s pos hs
  exact performs_p3 (i := .goTo pos) hs rfl rfl rfl (clampS_eq pos maxGotoPos)

/-- Settles O22: a motion command with a direction, its position clamped as signed. -/
theorem goToDirSendsTheSignedClampedPosition : Obligations.GoToDirSendsTheSignedClampedPosition := by
  intro s dir pos hs
  exact directed_p3 (i := .goToDir dir pos) hs rfl rfl rfl (clampS_eq pos maxGotoPos)

/-- Settles O23: a motion command with a direction and an action, its speed clamped as unsigned. -/
theorem goUntilRawSendsTheClampedSpeed : Obligations.GoUntilRawSendsTheClampedSpeed := by
  intro s action dir speed hs
  exact directed_p3 (i := .goUntilRaw action dir speed) hs rfl rfl rfl (clampU_eq speed maxGoUntilSpeed)

/-- Settles O24: a motion command with a direction and an action, the converted speed clamped as unsigned. -/
theorem goUntilSendsTheClampedConversion : Obligations.GoUntilSendsTheClampedConversion := by
  rintro s action dir f _ hs rfl
  exact directed_p3 (i := .goUntil action dir f) hs rfl rfl rfl (clampU_eq _ maxGoUntilSpeed)

/-! ## The payload and the maximum (R140, R229) -/

theorem bigEndian_txBytes (v : Word) {n : Nat} (hn : n ≤ 3) : bigEndian (txBytes v n) = v.toNat % 2 ^ (8 * n) := by
  rw [← rxAssemble_toNat (by simpa using hn), rxAssemble_txBytes_toNat v hn]

theorem clampU_toNat_le (v m : Word) : (clampU v m).toNat ≤ m.toNat := by
  rw [clampU_eq]
  split <;> omega

/-- On a position that is not negative the signed clamp is the unsigned one (D10). -/
theorem clampS_toNat_le {v m : Word} (hv : 0 ≤ v.toInt) (hm : 0 ≤ m.toInt) : (clampS v m).toNat ≤ m.toNat := by
  obtain ⟨-, -, -, hagree, -⟩ := maskAndClamps
  rw [← hagree v m hv hm]
  exact clampU_toNat_le v m

/-- Settles O25: the payload stands for the low 24 bits of the clamped value, so for no more than that value. -/
theorem motionPayloadNeverExceedsTheMaximum : Obligations.MotionPayloadNeverExceedsTheMaximum := by
  intro c i opc payload hf he
  rw [encode_p3 hf] at he
  obtain ⟨-, rfl⟩ : i.opcodeByte c = opc ∧ txBytes i.sentWord 3 = payload := by simpa using he
  have hle : bigEndian (txBytes i.sentWord 3) ≤ i.sentWord.toNat :=
    (bigEndian_txBytes i.sentWord le_rfl).trans_le (Nat.mod_le _ _)
  refine ⟨txBytes_length _ 3, ?_⟩
  cases i <;> simp only [Instr.format, reduceCtorEq] at hf
  case runRaw | run | move | goUntilRaw | goUntil => exact hle.trans (clampU_toNat_le _ _)
  case goTo | goToDir => exact fun hpos => hle.trans (clampS_toNat_le hpos (by decide))

end Sys2Proof.Machine
end

section
/-! SUPPORT. The zero-payload commands (42_zero_payload_commands.md): the transaction of an operation that sends its
opcode byte alone (R150 to R159). -/

namespace Sys2Proof.Machine

/-- The encoding of a zero-payload command: the opcode byte alone (R81, R150). -/
theorem encode_z {c : Cfg} {i : Instr} (h : i.format = .z) : encode c i = some [i.opcodeByte c] := by
  rw [encode_eq (followers_z h), Instr.followingBytes, h]

/-- A well-formed zero-payload command sends its opcode byte, and has no value. -/
theorem performs_z {i : Instr} {s : State} {opc : Byte} (hs : s.Ready) (hf : i.format = .z) (hw : i.wf = true)
    (hop : i.opcodeByte s.cfg = opc) : Performs i s (s.plain .z [opc]) (fun _ => .ok) := by
  obtain ⟨x, hx, hb⟩ := begins_encoding hs hw (encode_z hf)
  have hplain : x = s.plain .z [opc] := by rw [hb.eq_plain (.inl hf), hf, hx, hop]
  subst hplain
  exact hb.performs (by rintro rfl; cases hf) fun _ _ _ => rfl

/-- Settles O26: each command is of format Z, and without a direction it is well formed. -/
theorem zeroPayloadCommandsSendOneByte : Obligations.ZeroPayloadCommandsSendOneByte := by
  intro s hs
  refine ⟨?_, ?_, ?_, ?_, ?_, ?_, ?_, ?_⟩ <;> exact performs_z hs rfl rfl rfl

/-- Settles O27: a zero-payload command with a direction, whether the direction is legal or not. -/
theorem stepClockSendsOneByteWithTheDirection : Obligations.StepClockSendsOneByteWithTheDirection := by
  intro s dir hs
  exact ⟨fun hlegal => performs_z (i := .stepClock dir) hs rfl (dirLegal_of hlegal) rfl,
    fun hillegal => exec_illegalDirection (i := .stepClock dir) hs rfl (dirIllegal_of hillegal)⟩

end Sys2Proof.Machine
end

section
/-! SUPPORT. The status read (43_status_reader.md): what it carries out, what it leaves alone, and the same two bytes
read as a parameter (R170 to R173, R224). -/

namespace Sys2Proof.Machine

/-- Where no interrupt waits while `IE` is 1, a transaction leaves `IE` alone or gives it back (R171, R197). -/
theorem Begins.keepsIE {i : Instr} {s : State} {x : Transaction} (hb : Begins i s x)
    (hirq : s.ie = true → s.irqWaiting = 0) : x.keepsIE s :=
  hb.ie.imp id fun ⟨hies, hie, _⟩ => ⟨hies, hie, hirq⟩

/-- The two response bytes whole: no mask and no sign extension (R170). -/
theorem statusRead_result (s : State) (rs : List Byte) (rest : List Input) :
    (s.midway s.statusRead rs rest).result = .value (BitVec.ofNat 32 (bigEndian (rs.drop 1))) := rfl

/-- Settles O28: the status read begins its transaction, which puts `IE` back and whose value is the two response
bytes. -/
theorem getStatusReadsTwoBytes : Obligations.GetStatusReadsTwoBytes := by
  intro s hs hirq
  have hb := begins_status hs
  exact performs_of_begun hb.rxn hb.len (hb.keepsIE hirq) hb.exec_eq fun rs rest _ => statusRead_result s rs rest

/-- Settles O48: the status read is no parameter access, and without the critical section it leaves `IE` alone. -/
theorem statusReadLeavesWidthsAlone : Obligations.StatusReadLeavesWidthsAlone := by
  intro s t hs hr h
  obtain ⟨hc, hh, hflags, hw, hg⟩ := exec_frame hs hr h
  exact ⟨hw nofun nofun, hg nofun, hc, hh, fun hcrit => hflags fun _ => hcrit⟩

/-! ## The two status reads (R172, R224) -/

/-- The number that two bytes stand for is the word assembled from them (R54). -/
theorem ofNat_bigEndian_pair (hi lo : Byte) :
    BitVec.ofNat 32 (bigEndian [hi, lo]) = (hi.setWidth 32 <<< 8) ||| lo.setWidth 32 := by
  obtain ⟨-, hpair, -⟩ := rxAssembleIsBigEndian
  exact (foldl_shiftIn [hi, lo] (by simp)).symm.trans (hpair hi lo)

/-- A 16-bit mask keeps two bytes whole (D7). -/
theorem bigEndian_pair_mod (hi lo : Byte) : bigEndian [hi, lo] % 2 ^ 16 = bigEndian [hi, lo] :=
  Nat.mod_eq_of_lt (bigEndian_lt [hi, lo])

/-- A status read whose three exchanges are answered, whether or not interrupts wait: its events and its value. -/
theorem getStatus_answered {s : State} {r hi lo : Byte} {rest : List Input} (hs : s.Ready)
    (hin : s.inputs = answers [r, hi, lo] rest) :
    ∃ t, exec .getStatus s = .next t ∧
      t.trace = s.trace ++ events [s.cfg.getStatusOp, s.cfg.dummy, s.cfg.dummy] [r, hi, lo] ∧
      t.replies = s.replies ++ [.value ((hi.setWidth 32 <<< 8) ||| lo.setWidth 32)] := by
  refine ⟨_, (begins_status hs).answered (rs := [r, hi, lo]) rfl hin, rfl, ?_⟩
  rw [statusRead_result, ← ofNat_bigEndian_pair]
  rfl

/-- A 16-bit parameter read whose three exchanges are answered: its events and its value, which the mask does not
change; `IE` and `IES` as they were. -/
theorem getParam16_answered {s : State} {id r hi lo : Byte} {rest : List Input} (hs : s.Ready)
    (hw : s.cfg.widthOf id = some 16) (hin : s.inputs = answers [r, hi, lo] rest) :
    ∃ u, exec (.getParam id) s = .next u ∧
      u.trace = s.trace ++ events [s.cfg.getParamBase ||| id, s.cfg.dummy, s.cfg.dummy] [r, hi, lo] ∧
      u.replies = s.replies ++ [.value ((hi.setWidth 32 <<< 8) ||| lo.setWidth 32)] ∧
      u.ie = s.ie ∧ u.ies = none := by
  obtain ⟨hread, -⟩ := getParamReadsTheParameter s id hs
  obtain ⟨hok, -⟩ := hread 16 hw
  refine ⟨_, hok [r, hi, lo] rest rfl hin, rfl, ?_, rfl, rfl⟩
  rw [← ofNat_bigEndian_pair, ← bigEndian_pair_mod]
  rfl

/-- Settles O31: both reads assemble the same two bytes, and the first byte each sends is its opcode. -/
theorem twoStatusReadsAreDifferentStreams : Obligations.TwoStatusReadsAreDifferentStreams := by
  intro s r hi lo rest hs hw hop hin
  obtain ⟨t, ht, httr, htrep⟩ := getStatus_answered hs hin
  obtain ⟨u, hu, hutr, hurep, huie, huies⟩ := getParam16_answered hs hw hin
  refine ⟨t, u, ht, hu, ?_, ?_, fun htrace => hop ?_, htrep.trans hurep.symm, htrep, huie, huies⟩
  · simp [httr, events]
  · simp [hutr, events]
  · rw [httr, hutr, List.append_cancel_left_eq] at htrace
    simpa [events] using htrace

end Sys2Proof.Machine
end

section
/-! SUPPORT. The position accessors (44_position_accessors.md): the parameter accesses whose identifier the
configuration fixes, and the signed number that goes out and comes back (R180 to R186). -/

namespace Sys2Proof.Machine

/-! ## The transaction of a parameter write and of a signed read -/

/-- An operation that is the write of a registered parameter sends the width's bytes of its value, and has no value
(R111). -/
theorem performs_writeParam {i : Instr} {s : State} {id : Byte} {v : Word} {w : Nat} (hs : s.Ready)
    (hf : i.format = .pw) (hid : i.regId s.cfg = some id) (hw : s.cfg.widthOf id = some w)
    (hexec : exec i s = s.whenIdle (writeParam id v s)) :
    Performs i s (s.paramWrite ((s.cfg.setParamBase ||| id) :: lowBytes ((w + 7) / 8) v) w) (fun _ => .ok) :=
  (begins_pw hs hf hid hw (hexec.trans (whenIdle_ready hs _))).performs (by rintro rfl; cases hf) fun _ _ _ => rfl

/-- The word that a signed read returns, from the number its response bytes stand for: the mask keeps the low 22
bits, and the sign extension reads them as signed (R114). -/
theorem signExt22_mask_ofNat (n : Nat) :
    signExt22 (mask (BitVec.ofNat 32 n) 22) = BitVec.ofInt 32 (signed22 (n % 2 ^ 22)) := by
  rw [← BitVec.ofInt_toInt (x := signExt22 _), signExt22_mask_toInt, BitVec.toNat_ofNat,
    Nat.mod_mod_of_dvd n (Nat.pow_dvd_pow 2 (by decide))]

/-- An operation that is the read of a position register takes the sign-extended path: the registry says that the
register is signed and 22 bits wide (R61, R180, R181). -/
theorem performs_readPosition {i : Instr} {s : State} {id : Byte} (hs : s.Ready) (hi : i = .getPos ∨ i = .getMark)
    (hid : i.regId s.cfg = some id) (hpos : id = s.cfg.absPos ∨ id = s.cfg.mark)
    (hexec : exec i s = s.whenIdle (readPosition id s)) :
    Performs i s (s.paramRead [s.cfg.getParamBase ||| id, s.cfg.dummy, s.cfg.dummy, s.cfg.dummy] 22 true)
      (fun rs => .value (BitVec.ofInt 32 (signed22 (bigEndian (rs.drop 1) % 2 ^ 22)))) := by
  have hf : i.format = .pr := by rcases hi with rfl | rfl <;> rfl
  have ⟨_, _, _, hwf⟩ := hs
  obtain ⟨hw, hsigned⟩ := position_entry hwf hpos
  have hread : exec i s = readParam id true s := by
    rw [hexec, whenIdle_ready hs, readPosition, hsigned, Option.getD_some]
  refine (begins_pr hs hf hid (decide_eq_true hi).symm hw hread).performs (by rintro rfl; cases hf) fun rs rest _ => ?_
  exact congrArg Reply.value (signExt22_mask_ofNat _)

/-! ## Each accessor with its own identifier (R180 to R184) -/

/-- Settles O32: both are reads of a position register. -/
theorem getPosAndGetMarkReadSigned : Obligations.GetPosAndGetMarkReadSigned := by
  intro s hs
  exact ⟨performs_readPosition hs (.inl rfl) rfl (.inl rfl) rfl,
    performs_readPosition hs (.inr rfl) rfl (.inr rfl) rfl⟩

/-- Settles O33: both are writes of a position register, whose 22 bits take 3 bytes. -/
theorem setPosAndSetMarkSendThreeBytes : Obligations.SetPosAndSetMarkSendThreeBytes := by
  intro s value hs
  have ⟨_, _, _, hwf⟩ := hs
  obtain ⟨hpos, -⟩ := position_entry hwf (.inl rfl)
  obtain ⟨hmark, -⟩ := position_entry hwf (.inr rfl)
  exact ⟨performs_writeParam hs rfl rfl hpos rfl, performs_writeParam hs rfl rfl hmark rfl⟩

/-- Settles O34: a write of the register whose width the registry gives. -/
theorem setElPosSendsTheRegistryWidth : Obligations.SetElPosSendsTheRegistryWidth := by
  intro s value hs
  have ⟨_, _, _, hwf⟩ := hs
  obtain ⟨w, hw⟩ := elPos_entry hwf
  exact ⟨w, hw, performs_writeParam hs rfl rfl hw rfl⟩

/-! ## The bytes on the bus (R185) -/

/-- The bytes that stand in the events of exchanges all answered are the bytes sent (R25). -/
theorem events_map_out {out rs : List Byte} (h : out.length ≤ rs.length) : (events out rs).map (·.out) = out := by
  rw [events, List.map_zipWith]
  exact List.map_zip_eq_zipWith.symm.trans (List.map_fst_zip h)

/-- An operation whose exchanges are all answered has put its transaction's bytes on the bus and delivered its
reply. -/
theorem Performs.answered {i : Instr} {s : State} {x : Transaction} {reply : List Byte → Reply}
    (h : Performs i s x reply) {rs : List Byte} {rest : List Input} (hlen : rs.length = x.out.length)
    (hin : s.inputs = answers rs rest) :
    ∃ t, exec i s = .next t ∧ t.trace.map (·.out) = s.trace.map (·.out) ++ x.out ∧
      t.replies = s.replies ++ [reply rs] := by
  obtain ⟨hok, -⟩ := h
  refine ⟨_, hok rs rest hlen hin, ?_, rfl⟩
  have htrace : (s.afterOk x rs rest (reply rs)).trace = s.trace ++ events x.out rs := rfl
  rw [htrace, List.map_append, events_map_out hlen.ge]

/-- Settles O35: one exchange is not four, so the traces differ. -/
theorem resetPosIsNotSetPos : Obligations.ResetPosIsNotSetPos := by
  intro s v r0 r1 r2 r3 rest hs hin
  obtain ⟨hset, -⟩ := setPosAndSetMarkSendThreeBytes s v hs
  obtain ⟨t, ht, htout, -⟩ :=
    (performs_z (i := .resetPos) hs rfl rfl rfl).answered (rs := [r0]) (rest := answers [r1, r2, r3] rest) rfl hin
  obtain ⟨u, hu, huout, -⟩ := hset.answered (rs := [r0, r1, r2, r3]) rfl hin
  refine ⟨t, u, ht, hu, htout, huout, fun htrace => ?_⟩
  have hbytes := htout.symm.trans ((congrArg (List.map (·.out)) htrace).trans huout)
  have hcount : 1 = 4 := congrArg List.length (List.append_cancel_left hbytes)
  exact absurd hcount (by decide)

/-! ## The sign round trip (R186) -/

/-- The low 22 bits of three bytes do not depend on bits 7:6 of the first. -/
theorem bigEndian_mod_of_topByte (x y z : Byte) :
    bigEndian [x &&& 0x3F, y, z] % 2 ^ 22 = bigEndian [x, y, z] % 2 ^ 22 := by
  have hx : (x &&& 0x3F).toNat = x.toNat % 2 ^ 6 := Nat.and_two_pow_sub_one_eq_mod x.toNat 6
  simp only [bigEndian_cons _ [y, z], hx, List.length_cons, List.length_nil]
  omega

/-- The low 3 bytes of a signed 22-bit word, with or without bits 7:6 of the first, stand for that word. -/
theorem signed22_lowBytes {v : Word} (hlo : -2 ^ 21 ≤ v.toInt) (hhi : v.toInt < 2 ^ 21) {x x' y z : Byte}
    (hv : lowBytes 3 v = [x, y, z]) (hx : x' = x ∨ x' = x &&& 0x3F) :
    BitVec.ofInt 32 (signed22 (bigEndian [x', y, z] % 2 ^ 22)) = v := by
  have hx' : bigEndian [x', y, z] % 2 ^ 22 = bigEndian [x, y, z] % 2 ^ 22 := by
    rcases hx with rfl | rfl
    · rfl
    · exact bigEndian_mod_of_topByte x y z
  have hbytes : bigEndian [x, y, z] = v.toNat % 2 ^ (8 * 3) := by
    rw [← hv, lowBytes_eq v (by decide), bigEndian_txBytes v le_rfl]
  rw [hx', hbytes, Nat.mod_mod_of_dvd _ (Nat.pow_dvd_pow 2 (by decide)), signed22_mod hlo hhi, BitVec.ofInt_toInt]

/-- Settles O36: the payload is the word's low 3 bytes, and the low 22 bits of the response are all that a read
uses. -/
theorem positionSignRoundTrip : Obligations.PositionSignRoundTrip := by
  intro s v a b c d rest hlo hhi hs hin
  obtain ⟨x, y, z, hxyz⟩ : ∃ x y z, lowBytes 3 v = [x, y, z] := ⟨_, _, _, rfl⟩
  obtain ⟨hsetPos, hsetMark⟩ := setPosAndSetMarkSendThreeBytes s v hs
  rw [hxyz] at hsetPos hsetMark
  obtain ⟨t, ht, htout, -⟩ := hsetPos.answered (rs := [a, b, c, d]) rfl hin
  obtain ⟨t', ht', htout', -⟩ := hsetMark.answered (rs := [a, b, c, d]) rfl hin
  refine ⟨x, y, z, ⟨t, ht, htout⟩, ⟨t', ht', htout'⟩, fun u r x' rest' hu hx huin => ?_⟩
  have hv := signed22_lowBytes hlo hhi hxyz hx
  obtain ⟨hgetPos, hgetMark⟩ := getPosAndGetMarkReadSigned u hu
  obtain ⟨p, hp, -, hprep⟩ := hgetPos.answered (rs := [r, x', y, z]) rfl huin
  obtain ⟨m, hm, -, hmrep⟩ := hgetMark.answered (rs := [r, x', y, z]) rfl huin
  rw [List.drop_succ_cons, List.drop_zero, hv] at hprep hmrep
  exact ⟨⟨p, hp, hprep⟩, m, hm, hmrep⟩

end Sys2Proof.Machine
end

section
/-! SUPPORT. How an operation ends other than by its result, and that it then leaves the block ready; what keeps an
interrupt from being taken (60_exceptions.md R191 to R205, 70_reset_and_hazards.md R233). -/

namespace Sys2Proof.Machine

/-! ## Raising an error, and a request while busy -/

/-- Settles O39: an error ends the operation in progress as the rules say. -/
theorem raisingAnErrorEndsTheOperation : Obligations.RaisingAnErrorEndsTheOperation := by
  intro s e
  rw [raise_eq_ended]
  refine ⟨rfl, rfl, rfl, rfl, rfl, rfl, fun b hb => ?_, fun hn => ?_⟩
  · simp [State.ended, hb]
  · simp [State.ended, hn]

/-- Settles O41: the check of the phase stands before everything else an operation does. -/
theorem requestWhileBusyIsRefused : Obligations.RequestWhileBusyIsRefused := by
  intro i s hp
  obtain ⟨k, e, -⟩ := exec_whenIdle i s
  exact e.trans (whenIdle_busy hp k)

/-! ## An identifier that is not in the registry (R191) -/

theorem widthOf_eq_none {c : Cfg} {id : Byte} (h : ∀ e ∈ c.registry, e.id ≠ id) : c.widthOf id = none := by
  rw [Cfg.widthOf, entry_eq_none h, Option.map_none]

/-- The accessors' registers are in the registry of a well-formed configuration, so they have an encoding. -/
theorem accessor_encodes {c : Cfg} (hc : c.wf = true) {i : Instr} {v : Word}
    (hi : i ∈ [Instr.getPos, .getMark, .setPos v, .setMark v, .setElPos v]) : ∃ bytes, encode c i = some bytes := by
  obtain ⟨id, w, hid, hw⟩ : ∃ id w, i.regId c = some id ∧ c.widthOf id = some w := by
    have hpos := (position_entry hc (.inl rfl)).1
    have hmark := (position_entry hc (.inr rfl)).1
    obtain ⟨w, hel⟩ := elPos_entry hc
    fin_cases hi
    · exact ⟨_, _, rfl, hpos⟩
    · exact ⟨_, _, rfl, hmark⟩
    · exact ⟨_, _, rfl, hpos⟩
    · exact ⟨_, _, rfl, hmark⟩
    · exact ⟨_, _, rfl, hel⟩
  exact ⟨_, encode_eq (n := byteCount w) (by rw [followers_of_regId hid, hw, Option.map_some])⟩

/-- From `s` to `t` nothing was delivered, or one outcome that is not `InvalidRegister`. -/
def State.NoInvalidRegister (s t : State) : Prop :=
  t.replies = s.replies ∨ ∃ r, t.replies = s.replies ++ [r] ∧ ∀ id, r ≠ .error (.invalidRegister id)

theorem State.NoInvalidRegister.replies_ne {s t : State} (h : s.NoInvalidRegister t) (id : Byte) :
    t.replies ≠ s.replies ++ [.error (.invalidRegister id)] := by
  rcases h with hsame | ⟨r, hr, hne⟩
  · simp [hsame]
  · simpa [hr] using hne id

/-- What the sequencer delivers, if anything, is a result or `TransportFailure`. -/
theorem serve_noInvalidRegister {s t : State} (ins : List Input) (h : s.serve ins = .next t) :
    s.NoInvalidRegister t := by
  refine serve_induct (M := fun v => v.replies = s.replies) (Q := s.NoInvalidRegister)
    ?script ?draw ?byte ?wait ?done ?fail ?stuck ?taken ins s t ?cut rfl h
  case script => exact fun _ _ hv => hv
  case draw => exact fun _ hv => hv
  case byte => exact fun v r hv _ => (v.exchanged_replies r).trans hv
  case wait => exact fun _ hv _ => hv
  case done =>
    exact fun v hv _ => .inr ⟨v.result, by rw [v.complete_replies, hv], fun _ => result_ne_error v _⟩
  case fail =>
    intro v hv hq
    obtain ⟨b, q, hbq⟩ := List.exists_cons_of_ne_nil hq
    rw [exchangeFails_eq_ended hbq]
    exact .inr ⟨.error .transportFailure, congrArg (· ++ _) hv, by simp⟩
  case stuck => exact fun _ hv _ => .inl hv
  case taken => exact fun _ hv _ _ => .inl hv
  case cut => exact fun _ _ hv => .inl hv

/-- Settles O37: an identifier that is not in the registry has no width; an accessor's has one, so the accessor
begins a transaction, and the sequencer never raises `InvalidRegister`. -/
theorem invalidRegisterBeforeAnyExchange : Obligations.InvalidRegisterBeforeAnyExchange := by
  refine fun s id value hs => ⟨fun hn => ?_, fun i hi t j h => ?_⟩
  · have hw := widthOf_eq_none hn
    exact ⟨⟨_, exec_unregistered (i := .setParam id value) hs rfl rfl hw, rfl, rfl, rfl⟩,
      ⟨_, exec_unregistered (i := .getParam id) hs rfl rfl hw, rfl, rfl, rfl⟩⟩
  · have ⟨_, _, _, hwf⟩ := hs
    obtain ⟨bytes, he⟩ := accessor_encodes hwf hi
    rcases exec_next hs h with ⟨-, _, x, -, -, -, ht⟩ | ⟨hn, -⟩
    · exact (serve_noInvalidRegister _ ht).replies_ne j
    · simp [he] at hn

/-! ## An exchange that fails, and one that never returns -/

/-- An exchange of an operation's transaction that fails ends it there (R193, R199). -/
theorem Begins.failed {i : Instr} {s : State} {x : Transaction} (hb : Begins i s x)
    (hirq : s.ie = true → s.irqWaiting = 0) {rs : List Byte} {rest : List Input} (hlen : rs.length < x.out.length)
    (hin : s.inputs = answers rs (.answer .fail :: rest)) : exec i s = .next (s.afterFailure x rs rest) :=
  hb.exec_eq.trans (begun_fails hb.rxn hb.len (hb.keepsIE hirq) hin hlen)

/-- An exchange of an operation's transaction that never returns leaves it there (R201). -/
theorem Begins.hung {i : Instr} {s : State} {x : Transaction} (hb : Begins i s x) {rs : List Byte}
    {rest : List Input} (hlen : rs.length < x.out.length) (hin : s.inputs = answers rs (.answer .hang :: rest)) :
    exec i s = .next (s.midway x rs (.answer .hang :: rest)) := by
  have hq : (s.midway x rs (.answer .hang :: rest)).txq ≠ [] := by simp [State.midway, hlen]
  rw [hb.exec_eq, resume_begun hb.rxn hb.len hin hlen.le, serve_hang hq]

/-- Settles O38: the operation begins the transaction whose bytes are its encoding, and the exchange of the byte
`b` fails. -/
theorem transportFailureEndsTheOperation : Obligations.TransportFailureEndsTheOperation := by
  intro i s bytes rs b rest hs hirq hw he hb hin
  obtain ⟨x, rfl, hx⟩ := begins_encoding hs hw he
  obtain ⟨hlen, hget⟩ := List.getElem?_eq_some_iff.1 hb
  obtain ⟨-, -, -, hwf⟩ := hs
  refine ⟨_, hx.failed hirq hlen hin, ?_, rfl, rfl, ⟨rfl, rfl, rfl, hwf⟩, rfl, rfl⟩
  simp [State.afterFailure, List.drop_eq_getElem_cons hlen, hget]

/-- The step of a hung block answers the same state (log 8). -/
theorem State.Hung.step_eq {s : State} (h : s.Hung) : step s = .next s := by
  obtain ⟨hp, hq, rest, hin⟩ := h
  exact (State.Ends.hang hq (.scripted hin)).step_eq hp

/-- A machine whose step answers the same state stays in it. -/
theorem run_of_step_eq {M : Host.Core} {s : M.State} (h : M.step s = .next s) (k : Nat) : M.run k s = .next s := by
  induction k with
  | zero => rfl
  | succ k ih =>
    rw [Host.Core.run, h]
    exact ih

/-- Settles O40: the operation begins the transaction whose bytes are its encoding and stands midway in it; and the
step of a hung block answers the same state. -/
theorem hungBlockNeverMovesOn : Obligations.HungBlockNeverMovesOn := by
  refine ⟨fun i s bytes rs rest hs hw he hlen hin => ?_,
    fun s k h => ⟨run_of_step_eq (M := core) h.step_eq k, ?_⟩⟩
  · obtain ⟨x, rfl, hb⟩ := begins_encoding hs hw he
    have hq : x.out.drop rs.length ≠ [] := by simp [hlen]
    exact ⟨_, hb.hung hlen hin, ⟨rfl, hq, rest, rfl⟩, rfl, rfl, rfl⟩
  · rintro ⟨-, -, hidle, -⟩
    obtain ⟨hbusy, -⟩ := h
    simp [hbusy] at hidle

/-! ## Interrupts while `IE` is 0 (R197) -/

/-- From `s` to `v` no interrupt could be taken: `IE` is 0, nothing saved would make it 1, none has been taken, and
those that waited still do. -/
structure State.Deaf (s v : State) : Prop where
  ie : v.ie = false
  ies : v.ies ≠ some true
  noneTaken : v.irqTaken = s.irqTaken
  stillWait : s.irqWaiting ≤ v.irqWaiting

theorem State.Deaf.ended {s v : State} (h : s.Deaf v) (r : Reply) : s.Deaf (v.ended r) := by
  obtain ⟨hie, hies, ht, hw⟩ := h
  constructor
  case ie =>
    rcases hi : v.ies with - | (- | -)
    · simpa [State.ended, hi] using hie
    · simp [State.ended, hi]
    · exact absurd hi hies
  case ies => simp [State.ended]
  case noneTaken => simpa [State.ended, hies] using ht
  case stillWait => simpa [State.ended, hies] using hw

/-- A step without a reset lets no interrupt be taken while `IE` is 0. -/
theorem State.Deaf.serve {s u t : State} (hu : s.Deaf u) (ins : List Input) (hr : Input.reset ∉ ins)
    (h : u.serve ins = .next t) : s.Deaf t := by
  refine serve_induct (M := s.Deaf) (Q := s.Deaf)
    ?script ?draw ?byte ?wait ?done ?fail ?stuck ?taken ins u t ?cut hu h
  case script => exact fun _ _ hv => { hv with }
  case draw => exact fun _ hv => { hv with }
  case byte => exact fun v r ⟨hie, hies, ht, hw⟩ _ => by constructor <;> simpa
  case wait => exact fun _ hv _ => { hv with stillWait := hv.stillWait.trans (Nat.le_succ _) }
  case done => exact fun v hv hq => complete_eq_ended hq ▸ hv.ended _
  case fail =>
    intro v hv hq
    obtain ⟨b, q, hbq⟩ := List.exists_cons_of_ne_nil hq
    have htried : s.Deaf { v with trace := v.trace ++ [⟨b, none⟩] } := { hv with }
    exact exchangeFails_eq_ended hbq ▸ htried.ended _
  case stuck => exact fun _ hv _ => hv
  case taken => exact fun v hv _ hie => by simp [hv.ie] at hie
  case cut => exact fun hr' => absurd hr' hr

/-- Settles O49: the transaction runs with `IE` at 0 and saves no other value. -/
theorem noInterruptIsTakenWhileDisabled : Obligations.NoInterruptIsTakenWhileDisabled := by
  intro i s t hs hie hr h
  rcases exec_next hs h with ⟨-, bytes, x, -, -, hb, ht⟩ | ⟨-, -, id, rfl⟩
  · have hies : x.ies ≠ some true := by
      rw [Ne, (hb.masked_saves (.inl hie)).2, hie]
      decide
    have hbegun : s.Deaf (s.begun x) := ⟨hb.masked (.inl hie), hies, rfl, le_rfl⟩
    have hdeaf := hbegun.serve _ hr ht
    exact ⟨hdeaf.noneTaken, hdeaf.stillWait⟩
  · exact ⟨rfl, le_rfl⟩

/-! ## The block once an operation has ended (R200, R233) -/

/-- Where the block is idle, nothing is queued or saved; and if the script `ins` that it ran holds no reset, the
outcome has been delivered. -/
def State.Cleared (ins : List Input) (t : State) : Prop :=
  t.phase = .idle → t.txq = [] ∧ t.ies = none ∧ (Input.reset ∉ ins → t.undelivered = false)

theorem serve_cleared {s t : State} (hp : s.phase = .busy) (ins : List Input) (h : s.serve ins = .next t) :
    t.Cleared ins := by
  refine serve_induct (M := fun v => v.phase = .busy) (Q := State.Cleared ins)
    ?script ?draw ?byte ?wait ?done ?fail ?stuck ?taken ins s t ?cut hp h
  case script => exact fun _ _ hv => hv
  case draw => exact fun _ hv => hv
  case byte => exact fun v r hv _ => (v.exchanged_phase r).trans hv
  case wait => exact fun _ hv _ => hv
  case done => exact fun v _ hq _ => complete_eq_ended hq ▸ ⟨rfl, rfl, fun _ => rfl⟩
  case fail =>
    intro v _ hq _
    obtain ⟨b, q, hbq⟩ := List.exists_cons_of_ne_nil hq
    exact exchangeFails_eq_ended hbq ▸ ⟨rfl, rfl, fun _ => rfl⟩
  case stuck => exact fun v hv _ hi => by simp [hv] at hi
  case taken => exact fun v hv _ _ hi => by simp [hv] at hi
  case cut => exact fun hr _ _ _ => ⟨rfl, rfl, fun hn => absurd hr hn⟩

/-- Settles O54: the sequencer has ended the operation's transaction, or `InvalidRegister` changed nothing of the
block; and no step writes the configuration. -/
theorem endedOperationLeavesTheBlockReady : Obligations.EndedOperationLeavesTheBlockReady := by
  intro i s t hs h hidle
  have ⟨_, hq, hies, hwf⟩ := hs
  have htwf : t.cfg.wf = true := exec_keepsCfg i s t h ▸ hwf
  obtain ⟨htq, hties, hdel⟩ : t.txq = [] ∧ t.ies = none ∧ (s.NoReset → t.undelivered = false) := by
    rcases exec_next hs h with ⟨-, bytes, x, -, -, -, ht⟩ | ⟨-, -, id, rfl⟩
    · exact serve_cleared rfl _ ht hidle
    · exact ⟨hq, hies, fun _ => rfl⟩
  exact ⟨⟨hidle, htq, hties, htwf⟩, fun hr hreq => ⟨hreq, hdel hr, hidle, htq, hties⟩⟩

end Sys2Proof.Machine
end

section
/-! SUPPORT. A hang inside the critical status read, and a reset in mid-operation or of an idle block
(70_reset_and_hazards.md R220, R231, R233). -/

namespace Sys2Proof.Machine

/-! ## A hang inside the status read (R231) -/

/-- A hung block stays as it is, however many steps are made (R201, log 8). -/
theorem State.Hung.run_eq {s : State} (h : s.Hung) (k : Nat) : core.run k s = .next s :=
  run_of_step_eq (M := core) h.step_eq k

/-- An operation stands hung at an exchange of its transaction that never returns. -/
theorem midway_hung (s : State) {x : Transaction} {rs : List Byte} (hlen : rs.length < x.out.length)
    (rest : List Input) : (s.midway x rs (.answer .hang :: rest)).Hung :=
  ⟨rfl, by simp [State.midway, hlen], rest, rfl⟩

/-- Settles O30: the status read hangs midway in its transaction, which runs with `IE` at 0, and a hung block stays
there. -/
theorem hangInStatusReadLeavesInterruptsOff : Obligations.HangInStatusReadLeavesInterruptsOff := by
  intro s rs rest hs hc hlen hin
  have hb := begins_status hs
  obtain ⟨hie, -⟩ := hb.critical rfl hc
  exact ⟨_, hb.hung hlen hin, fun k => ⟨_, (midway_hung s hlen rest).run_eq k, hie, rfl, rfl⟩⟩

/-! ## A reset (R220) -/

/-- A reset leaves a ready block, since it keeps the configuration (R31). -/
theorem blockReset_ready {s : State} (hwf : s.cfg.wf = true) : s.blockReset.Ready :=
  (blockReset_resting hwf).ready

/-- A reset before an operation's last exchange cuts it short there (R220). -/
theorem Begins.cutShort {i : Instr} {s : State} {x : Transaction} (hb : Begins i s x) {rs : List Byte}
    {rest : List Input} (hlen : rs.length < x.out.length) (hin : s.inputs = answers rs (.reset :: rest)) :
    exec i s = .next (s.midway x rs rest).blockReset := by
  have hq : (s.midway x rs (.reset :: rest)).txq ≠ [] := by simp [State.midway, hlen]
  rw [hb.exec_eq, resume_begun hb.rxn hb.len hin hlen.le, serve_reset hq]
  rfl

/-- A reset in mid-operation delivers nothing, so the outcome stays outstanding and the run is not over (R233,
log 32). -/
theorem midway_blockReset_not_final (s : State) (x : Transaction) (rs : List Byte) (rest : List Input) :
    ¬ (s.midway x rs rest).blockReset.Final := by
  rintro ⟨-, hdelivered, -⟩
  simp [State.midway] at hdelivered

theorem hostStep_reset {s : State} {rest : List HostAction} (hh : s.host = .reset :: rest) :
    hostStep s = .next (State.blockReset { s with host := rest }) := by
  simp [hostStep, hh]

theorem hostStep_nothing {s : State} (hh : s.host = []) : hostStep s = .next s := by
  simp [hostStep, hh]

/-- Settles O53: the operation begins the transaction whose bytes are its encoding, and the reset finds a byte of it
still to be sent; an idle block turns to the host, which resets it or has nothing to present. -/
theorem resetInMidOperationCutsItShort : Obligations.ResetInMidOperationCutsItShort := by
  refine ⟨fun i s bytes rs rest hs hw he hlen hin => ?_, fun s rest hp hh => ?_, fun s hp hh => ?_⟩
  · obtain ⟨x, rfl, hb⟩ := begins_encoding hs hw he
    obtain ⟨-, -, -, hwf⟩ := hs
    exact ⟨_, hb.cutShort hlen hin, blockReset_ready hwf, rfl, rfl, rfl, rfl, rfl, rfl,
      midway_blockReset_not_final s x rs rest⟩
  · exact ⟨_, (step_idle hp).trans (hostStep_reset hh), rfl, rfl, rfl, rfl, rfl, rfl, rfl, rfl, rfl, rfl⟩
  · exact (step_idle hp).trans (hostStep_nothing hh)

end Sys2Proof.Machine
end
